-- ==== Sys2Proof/Config.lean ====
section
/-! DEFINITION. The fixed parameters of the block (spec/00_scope.md R8, R9). The block leaves no value open, so there is no
uninterpreted constant here (spec/93_implementation_defined.md: "The model has no `any value` row"). -/

namespace Sys2Proof

/-- R8: the memory size in bytes, 2^20. -/
def Config.memorySize : Nat := 1048576

/-- R9 (decision D22): the largest code image. -/
def Config.maxImage : Nat := 1048576

/-- R66: the longest instruction, in bytes. -/
def Config.longestInstr : Nat := 6

end Sys2Proof
end

