-- ==== Sys2Proof/Syntax.lean ====
section
/-! DEFINITION. The instruction set as data: one constructor of `Instr` for each of the 36 rows of spec/opcode_table.json,
with every field its encoding carries (spec/30_encoding.md R63, R64, R88). The two ignored fields (R84, R85) are kept as data so
that no bit of an encoding is lost; no meaning reads them. -/

namespace Sys2Proof

/-- R17: operand width, `w = 0` is 8 bits and `w = 1` is 16 bits. -/
inductive Width
  | byte
  | word
  deriving DecidableEq, Repr

/-- R17, R88: the direction bit. `fromReg` is `d = 0` (the reg field names the source), `toReg` is `d = 1` (the destination). -/
inductive Dir
  | fromReg
  | toReg
  deriving DecidableEq, Repr

/-- R21: the eight 16-bit registers, in code order 000 to 111. -/
inductive Reg16
  | ax | cx | dx | bx | sp | bp | si | di
  deriving DecidableEq, Repr

/-- R23: the eight 8-bit views, in code order 000 to 111. -/
inductive Reg8
  | al | cl | dl | bl | ah | ch | dh | bh
  deriving DecidableEq, Repr

/-- R25: the four segment registers, in code order 00 to 11. -/
inductive SReg
  | es | cs | ss | ds
  deriving DecidableEq, Repr

/-- R52: the base and index registers an `rm` code names in a memory operand, in code order 000 to 111. -/
inductive Base
  | bxSi | bxDi | bpSi | bpDi | si | di | bp | bx
  deriving DecidableEq, Repr

/-- R77, R78, R83: the address expression of a memory operand, by `mod`. -/
inductive MemRef
  /-- `mod = 00, rm = 110`, or the address of MOV_MEM_ACC and MOV_ACC_MEM: an unsigned 16-bit address. -/
  | direct (addr : Word)
  /-- `mod = 00, rm ≠ 110`: no displacement. -/
  | plain (base : Base)
  /-- `mod = 01`: a signed 8-bit displacement. -/
  | disp8 (base : Base) (disp : Byte)
  /-- `mod = 10`: a signed 16-bit displacement. -/
  | disp16 (base : Base) (disp : Word)
  deriving DecidableEq, Repr

/-- R83: the r/m operand: a register when `mod = 11`, else memory. `ρ` is the register type of the operand's width. -/
inductive Rm (ρ : Type)
  | reg (r : ρ)
  | mem (m : MemRef)
  deriving DecidableEq, Repr

/-- The operands of the register/memory with register forms; the constructor is the width bit `w`. -/
inductive RmReg
  | byte (rm : Rm Reg8) (reg : Reg8)
  | word (rm : Rm Reg16) (reg : Reg16)
  deriving DecidableEq, Repr

/-- The operands of MOV immediate to register (R142); the constructor is `w`. -/
inductive RegImm
  | byte (reg : Reg8) (imm : Byte)
  | word (reg : Reg16) (imm : Word)
  deriving DecidableEq, Repr

/-- The operands of MOV immediate to register/memory (R143); the constructor is `w`. -/
inductive RmImm
  | byte (rm : Rm Reg8) (imm : Byte)
  | word (rm : Rm Reg16) (imm : Word)
  deriving DecidableEq, Repr

/-- The operands of the ALU immediate to register/memory forms, by `s` and `w` (R74, R79, R80). -/
inductive RmImmAlu
  /-- `w = 0`; `s` changes neither the length nor the value of the immediate (R80: opcode 82 is the same as 80). -/
  | byte (s : Bool) (rm : Rm Reg8) (imm : Byte)
  /-- `w = 1, s = 0`: a literal two-byte immediate. -/
  | word (rm : Rm Reg16) (imm : Word)
  /-- `w = 1, s = 1`: one immediate byte, sign-extended to 16 bits. -/
  | wordSx (rm : Rm Reg16) (imm : Byte)
  deriving DecidableEq, Repr

/-- The immediate of the accumulator forms (R165, R168, R171); the constructor is `w`. -/
inductive AccImm
  | byte (imm : Byte)
  | word (imm : Word)
  deriving DecidableEq, Repr

/-- The 36 instructions (R3, R68, spec/opcode_table.json). -/
inductive Instr
  -- MOV (spec/41_mov.md)
  | movRmReg (d : Dir) (o : RmReg)
  | movRmSreg (ignored : BitVec 1) (sr : SReg) (rm : Rm Reg16)
  | movSregRm (ignored : BitVec 1) (sr : SReg) (rm : Rm Reg16)
  | movImmReg (o : RegImm)
  | movImmRm (ignored : BitVec 3) (o : RmImm)
  | movMemAcc (w : Width) (addr : Word)
  | movAccMem (w : Width) (addr : Word)
  -- ADD, SUB, CMP (spec/42_alu.md)
  | addRmReg (d : Dir) (o : RmReg)
  | addImmRm (o : RmImmAlu)
  | addImmAcc (o : AccImm)
  | subRmReg (d : Dir) (o : RmReg)
  | subImmRm (o : RmImmAlu)
  | subImmAcc (o : AccImm)
  | cmpRmReg (d : Dir) (o : RmReg)
  | cmpImmRm (o : RmImmAlu)
  | cmpImmAcc (o : AccImm)
  -- short jumps and loops (spec/43_branch.md)
  | jo (rel : Byte)
  | jno (rel : Byte)
  | jb (rel : Byte)
  | jnb (rel : Byte)
  | je (rel : Byte)
  | jne (rel : Byte)
  | jbe (rel : Byte)
  | ja (rel : Byte)
  | js (rel : Byte)
  | jns (rel : Byte)
  | jp (rel : Byte)
  | jnp (rel : Byte)
  | jl (rel : Byte)
  | jnl (rel : Byte)
  | jle (rel : Byte)
  | jg (rel : Byte)
  | loopnz (rel : Byte)
  | loopz (rel : Byte)
  | loop (rel : Byte)
  | jcxz (rel : Byte)
  deriving DecidableEq, Repr

end Sys2Proof
end

