-- ==== Sys2Proof/WellFormed.lean ====
section
/-! DEFINITION. Which instruction terms stand for an encoding. The types of Sys2Proof/Syntax.lean already tie every operand to its
width, so ONE check is left: `mod = 00, rm = 110` is the direct address (spec/30_encoding.md R73, R83), so there is no
displacement-less `[bp]`. -/

namespace Sys2Proof

/-- R73, R83: no encoding has base `bp` without a displacement. -/
def MemRef.wf : MemRef → Bool
  | .direct _ => true
  | .plain b => b != .bp
  | .disp8 _ _ => true
  | .disp16 _ _ => true

/-- An r/m operand is well-formed when its memory reference is. -/
def Rm.wf {ρ : Type} : Rm ρ → Bool
  | .reg _ => true
  | .mem m => m.wf

def RmReg.wf : RmReg → Bool
  | .byte rm _ => rm.wf
  | .word rm _ => rm.wf

def RmImm.wf : RmImm → Bool
  | .byte rm _ => rm.wf
  | .word rm _ => rm.wf

def RmImmAlu.wf : RmImmAlu → Bool
  | .byte _ rm _ => rm.wf
  | .word rm _ => rm.wf
  | .wordSx rm _ => rm.wf

/-- An instruction is well-formed when its r/m operand, if it has one, is. -/
def Instr.wf : Instr → Bool
  | .movRmReg _ o => o.wf
  | .movRmSreg _ _ rm => rm.wf
  | .movSregRm _ _ rm => rm.wf
  | .movImmReg _ => true
  | .movImmRm _ o => o.wf
  | .movMemAcc _ _ => true
  | .movAccMem _ _ => true
  | .addRmReg _ o => o.wf
  | .addImmRm o => o.wf
  | .addImmAcc _ => true
  | .subRmReg _ o => o.wf
  | .subImmRm o => o.wf
  | .subImmAcc _ => true
  | .cmpRmReg _ o => o.wf
  | .cmpImmRm o => o.wf
  | .cmpImmAcc _ => true
  | .jo _ => true
  | .jno _ => true
  | .jb _ => true
  | .jnb _ => true
  | .je _ => true
  | .jne _ => true
  | .jbe _ => true
  | .ja _ => true
  | .js _ => true
  | .jns _ => true
  | .jp _ => true
  | .jnp _ => true
  | .jl _ => true
  | .jnl _ => true
  | .jle _ => true
  | .jg _ => true
  | .loopnz _ => true
  | .loopz _ => true
  | .loop _ => true
  | .jcxz _ => true

end Sys2Proof
end

