-- ==== Sys2Proof/Decode.lean ====
section
/-! DEFINITION. The decoder and the encoder (spec/30_encoding.md): the ordered encoding table of R68 and the Classifier over it
(R69), the Length Resolver (R73 to R76), kind resolution (R71), operand assembly (R77 to R89), and the encoder written from the
byte layouts of R64 and R65. Decoding reads bytes only; it never reads the machine's memory (R62). -/

namespace Sys2Proof

/-! ### Bytes, bits and fields -/

/-- R48, R49: a word from its low and high byte. -/
def wordOf (lo hi : Byte) : Word := hi ++ lo

/-- R48: `v & 0xFF`. -/
def loByte (v : Word) : Byte := v.setWidth 8

/-- R48: `v >> 8`. -/
def hiByte (v : Word) : Byte := (v >>> 8).setWidth 8

/-- R13: `signed_8(v)`. -/
def signed8 (v : Byte) : Int := if v.toNat < 128 then v.toNat else v.toNat - 256

/-- R13: `signed_16(v)`. -/
def signed16 (v : Word) : Int := if v.toNat < 32768 then v.toNat else v.toNat - 65536

/-- R13: `sext_16` of a byte. -/
def sext16 (v : Byte) : Word := v.signExtend 16

/-- R12: byte `j` of an instruction's chunk. -/
def byteAt (bytes : List Byte) (j : Nat) : Byte := bytes.getD j 0

/-- R64: `mod = byte1[7:6]`. -/
def modField (b1 : Byte) : BitVec 2 := b1.extractLsb' 6 2

/-- R64: `reg = byte1[5:3]`; the same three bits are `op3` of the group 80-83 (R71) and the ignored bits of C6/C7 (R85). -/
def regField (b1 : Byte) : BitVec 3 := b1.extractLsb' 3 3

/-- R64: `rm = byte1[2:0]`. -/
def rmField (b1 : Byte) : BitVec 3 := b1.extractLsb' 0 3

/-- R64, R84: `sr = byte1[4:3]`. -/
def srField (b1 : Byte) : BitVec 2 := b1.extractLsb' 3 2

/-- R64, R84: the bit of a segment move that is not examined, `byte1[5]`. -/
def srIgnored (b1 : Byte) : BitVec 1 := b1.extractLsb' 5 1

/-- R64: a width bit. -/
def widthOf (bit : Bool) : Width := if bit then .word else .byte

/-- R64: the direction bit. -/
def dirOf (bit : Bool) : Dir := if bit then .toReg else .fromReg

/-- R21: the 16-bit register of a 3-bit code. -/
def reg16Of (c : BitVec 3) : Reg16 :=
  match c.toNat with
  | 0 => .ax | 1 => .cx | 2 => .dx | 3 => .bx | 4 => .sp | 5 => .bp | 6 => .si | _ => .di

/-- R23: the 8-bit view of a 3-bit code. -/
def reg8Of (c : BitVec 3) : Reg8 :=
  match c.toNat with
  | 0 => .al | 1 => .cl | 2 => .dl | 3 => .bl | 4 => .ah | 5 => .ch | 6 => .dh | _ => .bh

/-- R25: the segment register of a 2-bit code. -/
def sregOf (c : BitVec 2) : SReg :=
  match c.toNat with
  | 0 => .es | 1 => .cs | 2 => .ss | _ => .ds

/-- R52: the address registers of an `rm` code. -/
def baseOf (c : BitVec 3) : Base :=
  match c.toNat with
  | 0 => .bxSi | 1 => .bxDi | 2 => .bpSi | 3 => .bpDi | 4 => .si | 5 => .di | 6 => .bp | _ => .bx

/-! ### Kinds, length classes and the encoding table -/

/-- R17, R68: the instruction kind, the precise operation and form. -/
inductive Kind
  | movRmReg | movRmSreg | movSregRm | movImmReg | movImmRm | movMemAcc | movAccMem
  | addRmReg | addImmRm | addImmAcc | subRmReg | subImmRm | subImmAcc | cmpRmReg | cmpImmRm | cmpImmAcc
  | jo | jno | jb | jnb | je | jne | jbe | ja | js | jns | jp | jnp | jl | jnl | jle | jg | loopnz | loopz | loop | jcxz
  deriving DecidableEq, Repr

/-- R67: the seven length classes. -/
inductive LenClass
  | regMem | immToReg | immToRegMemAlu | immToRegMemMov | accImm | memAcc | shortJump
  deriving DecidableEq, Repr

/-- R68: what a row's prefix settles: a kind, or the 80-83 family whose kind `op3` resolves. -/
inductive RowKind
  | one (k : Kind)
  | aluByOp3
  deriving DecidableEq, Repr

/-- R68: one row of the encoding table: the prefix length, the match byte, the length class and the kind. -/
structure EncRow where
  len : Nat
  pattern : Byte
  cls : LenClass
  kind : RowKind
  deriving DecidableEq, Repr

/-- R68: the row's mask, ones on its prefix bits. -/
def EncRow.mask (r : EncRow) : Byte := 0xFF#8 <<< (8 - r.len)

/-- R69: `(byte0 & mask) == match`. -/
def EncRow.hits (r : EncRow) (b0 : Byte) : Bool := (b0 &&& r.mask) == r.pattern

/-- R68 rows 1 and 2: the segment-register moves. -/
def encodingRowsSeg : List EncRow :=
  [ ⟨8, 0b10001110#8, .regMem, .one .movRmSreg⟩,
    ⟨8, 0b10001100#8, .regMem, .one .movSregRm⟩ ]

/-- R68 rows 3 to 22: the short jumps and loops. -/
def encodingRowsJump : List EncRow :=
  [ ⟨8, 0b01110000#8, .shortJump, .one .jo⟩,
    ⟨8, 0b01110001#8, .shortJump, .one .jno⟩,
    ⟨8, 0b01110010#8, .shortJump, .one .jb⟩,
    ⟨8, 0b01110011#8, .shortJump, .one .jnb⟩,
    ⟨8, 0b01110100#8, .shortJump, .one .je⟩,
    ⟨8, 0b01110101#8, .shortJump, .one .jne⟩,
    ⟨8, 0b01110110#8, .shortJump, .one .jbe⟩,
    ⟨8, 0b01110111#8, .shortJump, .one .ja⟩,
    ⟨8, 0b01111000#8, .shortJump, .one .js⟩,
    ⟨8, 0b01111001#8, .shortJump, .one .jns⟩,
    ⟨8, 0b01111010#8, .shortJump, .one .jp⟩,
    ⟨8, 0b01111011#8, .shortJump, .one .jnp⟩,
    ⟨8, 0b01111100#8, .shortJump, .one .jl⟩,
    ⟨8, 0b01111101#8, .shortJump, .one .jnl⟩,
    ⟨8, 0b01111110#8, .shortJump, .one .jle⟩,
    ⟨8, 0b01111111#8, .shortJump, .one .jg⟩,
    ⟨8, 0b11100000#8, .shortJump, .one .loopnz⟩,
    ⟨8, 0b11100001#8, .shortJump, .one .loopz⟩,
    ⟨8, 0b11100010#8, .shortJump, .one .loop⟩,
    ⟨8, 0b11100011#8, .shortJump, .one .jcxz⟩ ]

/-- R68 rows 23 to 34: the 7-, 6- and 4-bit prefixes. -/
def encodingRowsShort : List EncRow :=
  [ ⟨7, 0b11000110#8, .immToRegMemMov, .one .movImmRm⟩,
    ⟨7, 0b10100000#8, .memAcc, .one .movMemAcc⟩,
    ⟨7, 0b10100010#8, .memAcc, .one .movAccMem⟩,
    ⟨7, 0b00000100#8, .accImm, .one .addImmAcc⟩,
    ⟨7, 0b00101100#8, .accImm, .one .subImmAcc⟩,
    ⟨7, 0b00111100#8, .accImm, .one .cmpImmAcc⟩,
    ⟨6, 0b10001000#8, .regMem, .one .movRmReg⟩,
    ⟨6, 0b00000000#8, .regMem, .one .addRmReg⟩,
    ⟨6, 0b00101000#8, .regMem, .one .subRmReg⟩,
    ⟨6, 0b00111000#8, .regMem, .one .cmpRmReg⟩,
    ⟨6, 0b10000000#8, .immToRegMemAlu, .aluByOp3⟩,
    ⟨4, 0b10110000#8, .immToReg, .one .movImmReg⟩ ]

/-- R68: the encoding table, in the order the Classifier checks it. -/
def encodingTable : List EncRow := encodingRowsSeg ++ encodingRowsJump ++ encodingRowsShort

/-- R69: the first row that matches, or none (then `UnsupportedEncoding`, R72). -/
def classify (b0 : Byte) : Option EncRow := encodingTable.find? (fun r => r.hits b0)

/-- Why a byte sequence does not decode. `unsupported` (R211) carries `byte1` only for a sub-opcode error. `truncated` (R212) carries
the bytes needed and the bytes available. `noByte`: there is no first byte; the sequencer is then exhausted (R101), no error. -/
inductive DecodeError
  | noByte
  | unsupported (byte0 : Byte) (byte1 : Option Byte)
  | truncated (byte0 : Byte) (needed available : Nat)
  deriving DecidableEq, Repr

/-! ### Length Resolver -/

/-- R100, R103: the classes whose length needs `byte1`. -/
def LenClass.needsModRm : LenClass → Bool
  | .regMem => true
  | .immToRegMemAlu => true
  | .immToRegMemMov => true
  | .immToReg => false
  | .accImm => false
  | .memAcc => false
  | .shortJump => false

/-- R73: the number of displacement bytes. -/
def dispLen (mod : BitVec 2) (rm : BitVec 3) : Nat :=
  match mod.toNat with
  | 0 => if rm = 0b110#3 then 2 else 0
  | 1 => 1
  | 2 => 2
  | _ => 0

/-- R74: immediate bytes of the ALU immediate to register/memory forms. -/
def immLenAlu (s w : Bool) : Nat := if !w || s then 1 else 2

/-- R74: immediate bytes of the other immediate forms, `1 + w`. -/
def immLen (w : Bool) : Nat := if w then 2 else 1

/-- R75: the number of bytes after `byte0`. Classes that do not need `byte1` do not read it (R76). -/
def additionalLength (cls : LenClass) (b0 b1 : Byte) : Nat :=
  match cls with
  | .regMem => 1 + dispLen (modField b1) (rmField b1)
  | .immToReg => immLen (b0.getLsbD 3)
  | .immToRegMemAlu => 1 + dispLen (modField b1) (rmField b1) + immLenAlu (b0.getLsbD 1) (b0.getLsbD 0)
  | .immToRegMemMov => 1 + dispLen (modField b1) (rmField b1) + immLen (b0.getLsbD 0)
  | .accImm => immLen (b0.getLsbD 0)
  | .memAcc => 2
  | .shortJump => 1

/-- R103, R104: the total length `n`, or `TruncatedInstruction`; a missing `byte1` of a ModRM class is found first, `needed = 2`. -/
def resolveLength (row : EncRow) (b0 : Byte) (rest : List Byte) : Except DecodeError Nat :=
  if row.cls.needsModRm && rest.isEmpty then .error (.truncated b0 2 1)
  else
    let n := 1 + additionalLength row.cls b0 (byteAt rest 0)
    if rest.length + 1 < n then .error (.truncated b0 n (rest.length + 1)) else .ok n

/-! ### Kind resolution and operand assembly -/

/-- R71: the sub-opcode of the group 80-83. -/
def resolveOp3 (op3 : BitVec 3) : Option Kind :=
  match op3.toNat with
  | 0 => some .addImmRm
  | 5 => some .subImmRm
  | 7 => some .cmpImmRm
  | _ => none

/-- R71: the kind, fixed by the row or resolved by `byte1[5:3]`; it runs after the whole instruction has been fetched. -/
def resolveKind (row : EncRow) (b1 : Byte) : Option Kind :=
  match row.kind with
  | .one k => some k
  | .aluByOp3 => resolveOp3 (regField b1)

/-- R77, R78, R83: the r/m operand of a chunk, registers named by `reg`. -/
def rmOperand {ρ : Type} (reg : BitVec 3 → ρ) (bytes : List Byte) : Rm ρ :=
  let b1 := byteAt bytes 1
  match (modField b1).toNat with
  | 0 => if rmField b1 = 0b110#3 then .mem (.direct (wordOf (byteAt bytes 2) (byteAt bytes 3))) else .mem (.plain (baseOf (rmField b1)))
  | 1 => .mem (.disp8 (baseOf (rmField b1)) (byteAt bytes 2))
  | 2 => .mem (.disp16 (baseOf (rmField b1)) (wordOf (byteAt bytes 2) (byteAt bytes 3)))
  | _ => .reg (reg (rmField b1))

/-- R79: where the immediate of an IRM format starts, `p = 2 + disp_len(mod, rm)`. -/
def immOffset (bytes : List Byte) : Nat := 2 + dispLen (modField (byteAt bytes 1)) (rmField (byteAt bytes 1))

/-- R79: a little-endian word at offset `p` of the chunk. -/
def wordAt (bytes : List Byte) (p : Nat) : Word := wordOf (byteAt bytes p) (byteAt bytes (p + 1))

/-- R88: the operands of a `_RM_REG` form. -/
def rmRegOperands (bytes : List Byte) : RmReg :=
  match widthOf ((byteAt bytes 0).getLsbD 0) with
  | .byte => .byte (rmOperand reg8Of bytes) (reg8Of (regField (byteAt bytes 1)))
  | .word => .word (rmOperand reg16Of bytes) (reg16Of (regField (byteAt bytes 1)))

/-- R88: the operands of MOV_IMM_REG, `w = byte0[3]`, `reg = byte0[2:0]`. -/
def regImmOperands (bytes : List Byte) : RegImm :=
  match widthOf ((byteAt bytes 0).getLsbD 3) with
  | .byte => .byte (reg8Of (rmField (byteAt bytes 0))) (byteAt bytes 1)
  | .word => .word (reg16Of (rmField (byteAt bytes 0))) (wordAt bytes 1)

/-- R88: the operands of MOV_IMM_RM. -/
def rmImmOperands (bytes : List Byte) : RmImm :=
  match widthOf ((byteAt bytes 0).getLsbD 0) with
  | .byte => .byte (rmOperand reg8Of bytes) (byteAt bytes (immOffset bytes))
  | .word => .word (rmOperand reg16Of bytes) (wordAt bytes (immOffset bytes))

/-- R80, R88: the operands of the ALU `_IMM_RM` forms, `s = byte0[1]`, `w = byte0[0]`. -/
def rmImmAluOperands (bytes : List Byte) : RmImmAlu :=
  match widthOf ((byteAt bytes 0).getLsbD 0), (byteAt bytes 0).getLsbD 1 with
  | .byte, s => .byte s (rmOperand reg8Of bytes) (byteAt bytes (immOffset bytes))
  | .word, false => .word (rmOperand reg16Of bytes) (wordAt bytes (immOffset bytes))
  | .word, true => .wordSx (rmOperand reg16Of bytes) (byteAt bytes (immOffset bytes))

/-- R88: the immediate of an `_IMM_ACC` form. -/
def accImmOperands (bytes : List Byte) : AccImm :=
  match widthOf ((byteAt bytes 0).getLsbD 0) with
  | .byte => .byte (byteAt bytes 1)
  | .word => .word (wordAt bytes 1)

/-- R89: the instruction of a kind, its operands taken from the chunk; total. -/
def assemble (k : Kind) (bytes : List Byte) : Instr :=
  match k with
  | .movRmReg => .movRmReg (dirOf ((byteAt bytes 0).getLsbD 1)) (rmRegOperands bytes)
  | .movRmSreg => .movRmSreg (srIgnored (byteAt bytes 1)) (sregOf (srField (byteAt bytes 1))) (rmOperand reg16Of bytes)
  | .movSregRm => .movSregRm (srIgnored (byteAt bytes 1)) (sregOf (srField (byteAt bytes 1))) (rmOperand reg16Of bytes)
  | .movImmReg => .movImmReg (regImmOperands bytes)
  | .movImmRm => .movImmRm (regField (byteAt bytes 1)) (rmImmOperands bytes)
  | .movMemAcc => .movMemAcc (widthOf ((byteAt bytes 0).getLsbD 0)) (wordAt bytes 1)
  | .movAccMem => .movAccMem (widthOf ((byteAt bytes 0).getLsbD 0)) (wordAt bytes 1)
  | .addRmReg => .addRmReg (dirOf ((byteAt bytes 0).getLsbD 1)) (rmRegOperands bytes)
  | .addImmRm => .addImmRm (rmImmAluOperands bytes)
  | .addImmAcc => .addImmAcc (accImmOperands bytes)
  | .subRmReg => .subRmReg (dirOf ((byteAt bytes 0).getLsbD 1)) (rmRegOperands bytes)
  | .subImmRm => .subImmRm (rmImmAluOperands bytes)
  | .subImmAcc => .subImmAcc (accImmOperands bytes)
  | .cmpRmReg => .cmpRmReg (dirOf ((byteAt bytes 0).getLsbD 1)) (rmRegOperands bytes)
  | .cmpImmRm => .cmpImmRm (rmImmAluOperands bytes)
  | .cmpImmAcc => .cmpImmAcc (accImmOperands bytes)
  | .jo => .jo (byteAt bytes 1)
  | .jno => .jno (byteAt bytes 1)
  | .jb => .jb (byteAt bytes 1)
  | .jnb => .jnb (byteAt bytes 1)
  | .je => .je (byteAt bytes 1)
  | .jne => .jne (byteAt bytes 1)
  | .jbe => .jbe (byteAt bytes 1)
  | .ja => .ja (byteAt bytes 1)
  | .js => .js (byteAt bytes 1)
  | .jns => .jns (byteAt bytes 1)
  | .jp => .jp (byteAt bytes 1)
  | .jnp => .jnp (byteAt bytes 1)
  | .jl => .jl (byteAt bytes 1)
  | .jnl => .jnl (byteAt bytes 1)
  | .jle => .jle (byteAt bytes 1)
  | .jg => .jg (byteAt bytes 1)
  | .loopnz => .loopnz (byteAt bytes 1)
  | .loopz => .loopz (byteAt bytes 1)
  | .loop => .loop (byteAt bytes 1)
  | .jcxz => .jcxz (byteAt bytes 1)

/-- R71, R89: kind resolution, then operand assembly, of a complete chunk; its only failure is the sub-opcode error. -/
def resolveInstr (row : EncRow) (bytes : List Byte) : Except DecodeError Instr :=
  match resolveKind row (byteAt bytes 1) with
  | none => .error (.unsupported (byteAt bytes 0) (some (byteAt bytes 1)))
  | some k => .ok (assemble k bytes)

/-- R103, R89: the instruction at the head of the bytes and the bytes after it, or the first error in the order of R214. -/
def decode : List Byte → Except DecodeError (Instr × List Byte)
  | [] => .error .noByte
  | b0 :: rest =>
    match classify b0 with
    | none => .error (.unsupported b0 none)
    | some row =>
      match resolveLength row b0 rest with
      | .error e => .error e
      | .ok n =>
        match resolveInstr row ((b0 :: rest).take n) with
        | .error e => .error e
        | .ok i => .ok (i, (b0 :: rest).drop n)

/-! ### Encoder -/

/-- R64: the width bit of a width. -/
def Width.bit : Width → BitVec 1
  | .byte => 0#1
  | .word => 1#1

/-- R64: the direction bit of a direction. -/
def Dir.bit : Dir → BitVec 1
  | .fromReg => 0#1
  | .toReg => 1#1

/-- R21: the code of a 16-bit register. -/
def Reg16.code : Reg16 → BitVec 3
  | .ax => 0b000#3 | .cx => 0b001#3 | .dx => 0b010#3 | .bx => 0b011#3
  | .sp => 0b100#3 | .bp => 0b101#3 | .si => 0b110#3 | .di => 0b111#3

/-- R23: the code of an 8-bit view. -/
def Reg8.code : Reg8 → BitVec 3
  | .al => 0b000#3 | .cl => 0b001#3 | .dl => 0b010#3 | .bl => 0b011#3
  | .ah => 0b100#3 | .ch => 0b101#3 | .dh => 0b110#3 | .bh => 0b111#3

/-- R25: the code of a segment register. -/
def SReg.code : SReg → BitVec 2
  | .es => 0b00#2 | .cs => 0b01#2 | .ss => 0b10#2 | .ds => 0b11#2

/-- R52: the `rm` code of the address registers. -/
def Base.code : Base → BitVec 3
  | .bxSi => 0b000#3 | .bxDi => 0b001#3 | .bpSi => 0b010#3 | .bpDi => 0b011#3
  | .si => 0b100#3 | .di => 0b101#3 | .bp => 0b110#3 | .bx => 0b111#3

/-- R65: the mod-reg-rm byte with the middle field `mid`. -/
def Rm.modRmByte {ρ : Type} (code : ρ → BitVec 3) (mid : BitVec 3) : Rm ρ → Byte
  | .reg r => 0b11#2 ++ mid ++ code r
  | .mem (.direct _) => 0b00#2 ++ mid ++ 0b110#3
  | .mem (.plain b) => 0b00#2 ++ mid ++ b.code
  | .mem (.disp8 b _) => 0b01#2 ++ mid ++ b.code
  | .mem (.disp16 b _) => 0b10#2 ++ mid ++ b.code

/-- R49: the two bytes of a word in the instruction stream. -/
def wordBytes (v : Word) : List Byte := [loByte v, hiByte v]

/-- R65, R77, R78: the displacement or direct-address bytes. -/
def Rm.dispBytes {ρ : Type} : Rm ρ → List Byte
  | .reg _ => []
  | .mem (.direct a) => wordBytes a
  | .mem (.plain _) => []
  | .mem (.disp8 _ d) => [d]
  | .mem (.disp16 _ d) => wordBytes d

/-- R65: the mod-reg-rm byte followed by the displacement. -/
def Rm.encode {ρ : Type} (code : ρ → BitVec 3) (mid : BitVec 3) (rm : Rm ρ) : List Byte :=
  rm.modRmByte code mid :: rm.dispBytes

/-- R65 format RM, `oooooodw mod reg rm`. -/
def RmReg.encode (op : BitVec 6) (d : Dir) : RmReg → List Byte
  | .byte rm reg => (op ++ d.bit ++ 0#1) :: rm.encode Reg8.code reg.code
  | .word rm reg => (op ++ d.bit ++ 1#1) :: rm.encode Reg16.code reg.code

/-- R65 format IR, `1011 w reg data`. -/
def RegImm.encode : RegImm → List Byte
  | .byte reg imm => [0b1011#4 ++ 0#1 ++ reg.code, imm]
  | .word reg imm => (0b1011#4 ++ 1#1 ++ reg.code) :: wordBytes imm

/-- R65 format IRM-MOV, `1100011w mod --- rm data`. -/
def RmImm.encode (mid : BitVec 3) : RmImm → List Byte
  | .byte rm imm => (0b1100011#7 ++ 0#1) :: (rm.encode Reg8.code mid ++ [imm])
  | .word rm imm => (0b1100011#7 ++ 1#1) :: (rm.encode Reg16.code mid ++ wordBytes imm)

/-- R65 format IRM-ALU, `100000sw mod op3 rm data`. -/
def RmImmAlu.encode (op3 : BitVec 3) : RmImmAlu → List Byte
  | .byte s rm imm => (0b100000#6 ++ BitVec.ofBool s ++ 0#1) :: (rm.encode Reg8.code op3 ++ [imm])
  | .word rm imm => (0b100000#6 ++ 0#1 ++ 1#1) :: (rm.encode Reg16.code op3 ++ wordBytes imm)
  | .wordSx rm imm => (0b100000#6 ++ 1#1 ++ 1#1) :: (rm.encode Reg16.code op3 ++ [imm])

/-- R65 format AI, a 7-bit opcode, `w` and the immediate. -/
def AccImm.encode (op : BitVec 7) : AccImm → List Byte
  | .byte imm => [op ++ 0#1, imm]
  | .word imm => (op ++ 1#1) :: wordBytes imm

/-- R64, R68: the bytes of an instruction, in fetch order. -/
def encode : Instr → List Byte
  | .movRmReg d o => o.encode 0b100010#6 d
  | .movRmSreg ign sr rm => 0b10001110#8 :: rm.encode Reg16.code (ign ++ sr.code)
  | .movSregRm ign sr rm => 0b10001100#8 :: rm.encode Reg16.code (ign ++ sr.code)
  | .movImmReg o => o.encode
  | .movImmRm ign o => o.encode ign
  | .movMemAcc w a => (0b1010000#7 ++ w.bit) :: wordBytes a
  | .movAccMem w a => (0b1010001#7 ++ w.bit) :: wordBytes a
  | .addRmReg d o => o.encode 0b000000#6 d
  | .addImmRm o => o.encode 0b000#3
  | .addImmAcc o => o.encode 0b0000010#7
  | .subRmReg d o => o.encode 0b001010#6 d
  | .subImmRm o => o.encode 0b101#3
  | .subImmAcc o => o.encode 0b0010110#7
  | .cmpRmReg d o => o.encode 0b001110#6 d
  | .cmpImmRm o => o.encode 0b111#3
  | .cmpImmAcc o => o.encode 0b0011110#7
  | .jo rel => [0b01110000#8, rel]
  | .jno rel => [0b01110001#8, rel]
  | .jb rel => [0b01110010#8, rel]
  | .jnb rel => [0b01110011#8, rel]
  | .je rel => [0b01110100#8, rel]
  | .jne rel => [0b01110101#8, rel]
  | .jbe rel => [0b01110110#8, rel]
  | .ja rel => [0b01110111#8, rel]
  | .js rel => [0b01111000#8, rel]
  | .jns rel => [0b01111001#8, rel]
  | .jp rel => [0b01111010#8, rel]
  | .jnp rel => [0b01111011#8, rel]
  | .jl rel => [0b01111100#8, rel]
  | .jnl rel => [0b01111101#8, rel]
  | .jle rel => [0b01111110#8, rel]
  | .jg rel => [0b01111111#8, rel]
  | .loopnz rel => [0b11100000#8, rel]
  | .loopz rel => [0b11100001#8, rel]
  | .loop rel => [0b11100010#8, rel]
  | .jcxz rel => [0b11100011#8, rel]

/-! ### Length of an instruction -/

/-- R73: the displacement bytes of an r/m operand. -/
def Rm.dispLen {ρ : Type} : Rm ρ → Nat
  | .reg _ => 0
  | .mem (.direct _) => 2
  | .mem (.plain _) => 0
  | .mem (.disp8 _ _) => 1
  | .mem (.disp16 _ _) => 2

def RmReg.length : RmReg → Nat
  | .byte rm _ => 2 + rm.dispLen
  | .word rm _ => 2 + rm.dispLen

def RegImm.length : RegImm → Nat
  | .byte _ _ => 2
  | .word _ _ => 3

def RmImm.length : RmImm → Nat
  | .byte rm _ => 3 + rm.dispLen
  | .word rm _ => 4 + rm.dispLen

def RmImmAlu.length : RmImmAlu → Nat
  | .byte _ rm _ => 3 + rm.dispLen
  | .word rm _ => 4 + rm.dispLen
  | .wordSx rm _ => 3 + rm.dispLen

def AccImm.length : AccImm → Nat
  | .byte _ => 2
  | .word _ => 3

/-- R75 and the Length line of R141 to R201: the instruction's length `n` in bytes. -/
def Instr.length : Instr → Nat
  | .movRmReg _ o => o.length
  | .movRmSreg _ _ rm => 2 + rm.dispLen
  | .movSregRm _ _ rm => 2 + rm.dispLen
  | .movImmReg o => o.length
  | .movImmRm _ o => o.length
  | .movMemAcc _ _ => 3
  | .movAccMem _ _ => 3
  | .addRmReg _ o => o.length
  | .addImmRm o => o.length
  | .addImmAcc o => o.length
  | .subRmReg _ o => o.length
  | .subImmRm o => o.length
  | .subImmAcc o => o.length
  | .cmpRmReg _ o => o.length
  | .cmpImmRm o => o.length
  | .cmpImmAcc o => o.length
  | .jo _ => 2
  | .jno _ => 2
  | .jb _ => 2
  | .jnb _ => 2
  | .je _ => 2
  | .jne _ => 2
  | .jbe _ => 2
  | .ja _ => 2
  | .js _ => 2
  | .jns _ => 2
  | .jp _ => 2
  | .jnp _ => 2
  | .jl _ => 2
  | .jnl _ => 2
  | .jle _ => 2
  | .jg _ => 2
  | .loopnz _ => 2
  | .loopz _ => 2
  | .loop _ => 2
  | .jcxz _ => 2

/-- R68: the kind of an instruction. -/
def Instr.kind : Instr → Kind
  | .movRmReg _ _ => .movRmReg
  | .movRmSreg _ _ _ => .movRmSreg
  | .movSregRm _ _ _ => .movSregRm
  | .movImmReg _ => .movImmReg
  | .movImmRm _ _ => .movImmRm
  | .movMemAcc _ _ => .movMemAcc
  | .movAccMem _ _ => .movAccMem
  | .addRmReg _ _ => .addRmReg
  | .addImmRm _ => .addImmRm
  | .addImmAcc _ => .addImmAcc
  | .subRmReg _ _ => .subRmReg
  | .subImmRm _ => .subImmRm
  | .subImmAcc _ => .subImmAcc
  | .cmpRmReg _ _ => .cmpRmReg
  | .cmpImmRm _ => .cmpImmRm
  | .cmpImmAcc _ => .cmpImmAcc
  | .jo _ => .jo
  | .jno _ => .jno
  | .jb _ => .jb
  | .jnb _ => .jnb
  | .je _ => .je
  | .jne _ => .jne
  | .jbe _ => .jbe
  | .ja _ => .ja
  | .js _ => .js
  | .jns _ => .jns
  | .jp _ => .jp
  | .jnp _ => .jnp
  | .jl _ => .jl
  | .jnl _ => .jnl
  | .jle _ => .jle
  | .jg _ => .jg
  | .loopnz _ => .loopnz
  | .loopz _ => .loopz
  | .loop _ => .loop
  | .jcxz _ => .jcxz

/-! ### The opcode table's numbering -/

/-- The bytes of a table row's word `w` of `nbits` bits, the first byte at the lowest address, zeros after it up to the longest
instruction. spec/opcode_table.json numbers a two-byte row as `byte0 << 8 | byte1` (its `match_rule`), so the first byte is the
MOST significant one of the word (log entry 8). -/
def tableBytes (nbits w : Nat) : List Byte :=
  let n := (nbits + 7) / 8
  (List.range n).map (fun j => BitVec.ofNat 8 (w >>> (8 * (n - 1 - j)))) ++ List.replicate (Config.longestInstr - n) 0#8

/-- The instruction this decoder reads from a table row's word, or none where it refuses. -/
def decodeTableWord (nbits w : Nat) : Option Instr :=
  match decode (tableBytes nbits w) with
  | .ok (i, _) => some i
  | .error _ => none

end Sys2Proof
end

