-- ==== Sys2Proof/Machine/State.lean ====
section
/-! DEFINITION. The state of the block (spec/10_state.md R20 to R37), its inputs and outputs (spec/00_scope.md R9, R11), the error
taxonomy (spec/60_exceptions.md R210), the outcomes a step can stop with, and the state right after reset. Plain data only. -/

namespace Sys2Proof.Machine

/-- R9, R33: the `MODE` input, fixed for a whole run. -/
inductive Mode
  | disassemble
  | simulate
  deriving DecidableEq, Repr

/-- R210: the closed enumeration of fatal errors; the name is the code (D28). -/
inductive ErrorKind
  | unsupportedEncoding
  | truncatedInstruction
  /-- R215: part of the taxonomy, never raised. -/
  | invalidOperandCombination
  /-- R213: the spec's own error (D7). -/
  | branchTargetNegative
  deriving DecidableEq, Repr

/-- R210: the context of an error. -/
structure Context where
  ip : Nat
  byte0 : Byte
  byte1 : Option Byte := none
  needed : Option Nat := none
  available : Option Nat := none
  rel : Option Int := none
  deriving DecidableEq, Repr

/-- R35, R210: the run status. -/
inductive Status
  | running
  | exhausted
  | error (kind : ErrorKind) (context : Context)
  deriving DecidableEq, Repr

/-- R30: the FlagSet. -/
structure Flags where
  zf : Bool
  sf : Bool
  deriving DecidableEq, Repr

/-- R21: the RegisterFile. The 8-bit views (R24) have no storage here. -/
structure RegFile where
  ax : Word
  cx : Word
  dx : Word
  bx : Word
  sp : Word
  bp : Word
  si : Word
  di : Word
  deriving DecidableEq, Repr

/-- R25: the segment registers. -/
structure SegFile where
  es : Word
  cs : Word
  ss : Word
  ds : Word
  deriving DecidableEq, Repr

/-- R47: the bytes of Memory that differ from its reset contents, by strictly rising address (`Memory.wf`, Machine/Ops.lean). -/
abbrev Memory := List Host.Cell

/-- R121: a change record, (field, old, new). -/
inductive Change
  | reg (r : Reg16) (old new : Word)
  | sreg (q : SReg) (old new : Word)
  | ip (old new : Nat)
  | flags (old new : Flags)
  deriving DecidableEq, Repr

/-- R20, with the inputs `CODE` and `MODE` (R9) and the outputs `LINES` and `CHANGES` (R11). -/
structure State where
  /-- The code image `CODE`, an input no step changes (R45). -/
  code : List Byte
  /-- The input `MODE` (R33). -/
  mode : Mode
  /-- The RegisterFile (R21). -/
  regs : RegFile
  /-- The segment registers (R25). -/
  segs : SegFile
  /-- The FlagSet (R30). -/
  flags : Flags
  /-- The instruction pointer, an unbounded natural number (R27, D6). -/
  ip : Nat
  /-- Memory (R47). -/
  mem : Memory
  /-- The run status (R35). -/
  status : Status
  /-- The output `LINES`, oldest first (R11). -/
  lines : List String
  /-- The output `CHANGES`, one list of records per simulated instruction, oldest first (R11, R122). -/
  changes : List (List Change)
  deriving DecidableEq, Repr

/-- Why a step does not go on. Both are answered only by a step taken from a run that has already ended (R35: "A step is enabled only
when the status is `Running`"), so both are safe: the block takes no such step. -/
inductive Fault
  /-- A step from status `Error(kind, context)`; raised by `step` (R228: the error is a fault, terminal, never cleared). Safe. -/
  | fatal (kind : ErrorKind) (context : Context)
  /-- A step from status `Exhausted`, the clean final state; raised by `step` (R35, R101). Safe. -/
  | runEnded
  deriving DecidableEq, Repr

/-- What the model gives no meaning to. -/
inductive Refusal
  /-- An instruction without a meaning; no arm of `exec` answers it. Safe. -/
  | notModelled (mnemonic : String)
  /-- An image over 1,048,576 bytes, "refused before reset" (R9, R231, D22); raised by `State.load`. Safe. -/
  | imageTooLarge
  deriving DecidableEq, Repr

/-- What the sequencer finds at `ip` before it executes (R101, R103): nothing left, a decode error, or an instruction. -/
inductive Fetched
  | exhausted
  | failed (kind : ErrorKind) (context : Context)
  | decoded (i : Instr)
  deriving DecidableEq, Repr

/-- R36: every general register is 0 at reset. -/
def RegFile.reset : RegFile := ⟨0, 0, 0, 0, 0, 0, 0, 0⟩

/-- R36 (D2): every segment register is 0 at reset. -/
def SegFile.reset : SegFile := ⟨0, 0, 0, 0⟩

/-- R36: both flags are false at reset. -/
def Flags.reset : Flags := ⟨false, false⟩

/-- R36, R231. The inputs have no reset value: here `CODE` is the empty image and `MODE` is `Simulate`
(DESIGN CHOICE, log entry 1); `State.load` supplies others. -/
def State.reset : State :=
  { code := [], mode := .simulate, regs := .reset, segs := .reset, flags := .reset, ip := 0, mem := [], status := .running,
    lines := [], changes := [] }

end Sys2Proof.Machine
end

