-- ==== Sys2Proof/Machine/Ops.lean ====
section
/-! DEFINITION. The named operations over registers, memory, the instruction pointer and the run status: R21 to R25, R45 to R51, R28,
R35, and loading a run (R231). Ending a run in a fatal error is the ONE operation `State.raise` (R219: it sets `STATUS` and nothing
else, with no vector, no saved registers and no handler); there is no return from an error to stand beside it (R216, R220). -/

namespace Sys2Proof

/-- R24: the register an 8-bit view belongs to. -/
def Reg8.parent : Reg8 → Reg16
  | .al => .ax | .cl => .cx | .dl => .dx | .bl => .bx | .ah => .ax | .ch => .cx | .dh => .dx | .bh => .bx

/-- R24: whether a view is the high byte. -/
def Reg8.high : Reg8 → Bool
  | .al => false | .cl => false | .dl => false | .bl => false | .ah => true | .ch => true | .dh => true | .bh => true

end Sys2Proof

namespace Sys2Proof.Machine

/-! ### General registers -/

/-- R22: a register's value. -/
def RegFile.get (f : RegFile) : Reg16 → Word
  | .ax => f.ax | .cx => f.cx | .dx => f.dx | .bx => f.bx | .sp => f.sp | .bp => f.bp | .si => f.si | .di => f.di

/-- R22: the register file after a write. -/
def RegFile.set (f : RegFile) (r : Reg16) (v : Word) : RegFile :=
  match r with
  | .ax => { f with ax := v }
  | .cx => { f with cx := v }
  | .dx => { f with dx := v }
  | .bx => { f with bx := v }
  | .sp => { f with sp := v }
  | .bp => { f with bp := v }
  | .si => { f with si := v }
  | .di => { f with di := v }

/-- R14, R22: `reg16[r]`. -/
def State.reg16 (s : State) (r : Reg16) : Word := s.regs.get r

/-- R14, R22: `reg16[r] <- v`. -/
def State.setReg16 (s : State) (r : Reg16) (v : Word) : State := { s with regs := s.regs.set r v }

/-- R24: `reg8[r]`. -/
def State.reg8 (s : State) (r : Reg8) : Byte :=
  let p := s.reg16 r.parent
  if r.high then ((p >>> 8) &&& 0xFF#16).setWidth 8 else (p &&& 0xFF#16).setWidth 8

/-- R24: `reg8[r] <- v`; the other half of the parent is kept. -/
def State.setReg8 (s : State) (r : Reg8) (v : Byte) : State :=
  let p := s.reg16 r.parent
  s.setReg16 r.parent
    (if r.high then (p &&& 0x00FF#16) ||| (v.setWidth 16 <<< 8) else (p &&& 0xFF00#16) ||| v.setWidth 16)

/-! ### Segment registers -/

/-- R25: a segment register's value. -/
def SegFile.get (f : SegFile) : SReg → Word
  | .es => f.es | .cs => f.cs | .ss => f.ss | .ds => f.ds

/-- R25: the segment registers after a write. -/
def SegFile.set (f : SegFile) (q : SReg) (v : Word) : SegFile :=
  match q with
  | .es => { f with es := v }
  | .cs => { f with cs := v }
  | .ss => { f with ss := v }
  | .ds => { f with ds := v }

/-- R14, R25: `sreg[q]`. -/
def State.sreg (s : State) (q : SReg) : Word := s.segs.get q

/-- R14, R25: `sreg[q] <- v`. -/
def State.setSreg (s : State) (q : SReg) (v : Word) : State := { s with segs := s.segs.set q v }

/-! ### Memory -/

/-- R36, R47: what byte `a` of Memory is at reset, `CODE[a]` below `L` and 0 above; the reading of every unlisted address. -/
def resetByte (code : List Byte) (a : Nat) : Byte := code.getD a 0

/-- The listed value of address `a`, if there is one. -/
def Memory.find : Memory → Nat → Option Byte
  | [], _ => none
  | c :: m, a => if c.1 = a then some c.2 else Memory.find m a

/-- List a value for address `a`, in address order. -/
def Memory.put : Memory → Nat → Byte → Memory
  | [], a, v => [(a, v)]
  | c :: m, a, v => if a < c.1 then (a, v) :: c :: m else if a = c.1 then (a, v) :: m else c :: Memory.put m a v

/-- Take address `a` off the list. -/
def Memory.remove : Memory → Nat → Memory
  | [], _ => []
  | c :: m, a => if c.1 = a then Memory.remove m a else c :: Memory.remove m a

/-- R50: byte `a` of Memory. -/
def Memory.readByte (code : List Byte) (m : Memory) (a : Nat) : Byte := (m.find a).getD (resetByte code a)

/-- R51: `Memory[a] <- v`; a byte at its reset value is not listed. -/
def Memory.writeByte (code : List Byte) (m : Memory) (a : Nat) (v : Byte) : Memory :=
  if v = resetByte code a then m.remove a else m.put a v

/-- The canonical form: addresses strictly rising and inside Memory (R46), no entry equal to what an unlisted address reads as. -/
def Memory.wf (code : List Byte) (m : Memory) : Bool :=
  decide (m.Pairwise (fun c d => c.1 < d.1)) && m.all (fun c => decide (c.1 < Config.memorySize) && c.2 != resetByte code c.1)

/-- R50: `MemRead(a, 1)`. -/
def State.readByte (s : State) (a : Nat) : Byte := s.mem.readByte s.code a

/-- R48, R50: `MemRead(a, 2)`, the low byte at `a`. -/
def State.readWord (s : State) (a : Nat) : Word := wordOf (s.readByte a) (s.readByte (a + 1))

/-- R51: `MemWrite(a, 1, v)`. -/
def State.writeByte (s : State) (a : Nat) (v : Byte) : State := { s with mem := s.mem.writeByte s.code a v }

/-- R48, R51: `MemWrite(a, 2, v)`, the low byte at `a`. -/
def State.writeWord (s : State) (a : Nat) (v : Word) : State := (s.writeByte a (loByte v)).writeByte (a + 1) (hiByte v)

/-! ### Flags, instruction pointer, run status -/

/-- R30, R31: both flags are written. -/
def State.setFlags (s : State) (f : Flags) : State := { s with flags := f }

/-- R28: `ip <- ip + n`. -/
def State.advance (s : State) (n : Nat) : State := { s with ip := s.ip + n }

/-- R28, R180: `ip <- target` of a taken branch. -/
def State.jumpTo (s : State) (target : Nat) : State := { s with ip := target }

/-- R210, R217, R219: ending the run in a fatal error sets the run status and changes nothing else. -/
def State.raise (s : State) (kind : ErrorKind) (context : Context) : State := { s with status := .error kind context }

/-- R101: the clean end of a run sets the run status and changes nothing else. -/
def State.exhaust (s : State) : State := { s with status := .exhausted }

/-! ### Starting a run -/

/-- R231: reset with a code image and a mode. Memory lists nothing: it then reads `CODE` from address 0 and zeros above (R47). -/
def State.start (code : List Byte) (mode : Mode) : State := { State.reset with code := code, mode := mode }

/-- R231 (D22): start a run, or refuse an image over 1,048,576 bytes before reset. -/
def State.load (code : List Byte) (mode : Mode) : Host.Outcome State Fault Refusal :=
  if code.length ≤ Config.maxImage then .next (State.start code mode) else .refused .imageTooLarge

end Sys2Proof.Machine
end

