-- ==== Sys2Proof/Machine/Operands.lean ====
section
/-! DEFINITION. Every operand form: effective addresses (spec/20_memory.md R52 to R54), locations and sources with their reads and
writes (spec/40_sequencer_and_renderer.md R118, R119), and the operand roles of every kind (spec/30_encoding.md R88). A read takes the
state before the instruction, and a write computes its address from that same state (R120, R238). -/

namespace Sys2Proof.Machine

/-! ### Effective address -/

/-- R52: base plus optional index, from the register values before the instruction executes. -/
def State.baseValue (s : State) : Base → Word
  | .bxSi => s.reg16 .bx + s.reg16 .si
  | .bxDi => s.reg16 .bx + s.reg16 .di
  | .bpSi => s.reg16 .bp + s.reg16 .si
  | .bpDi => s.reg16 .bp + s.reg16 .di
  | .si => s.reg16 .si
  | .di => s.reg16 .di
  | .bp => s.reg16 .bp
  | .bx => s.reg16 .bx

/-- R52, R53: the effective address, computed modulo 65,536; no register is added to a direct address, and no segment ever (R56). -/
def State.ea (s : State) : MemRef → Word
  | .direct a => a
  | .plain b => s.baseValue b
  | .disp8 b d => s.baseValue b + sext16 d
  | .disp16 b d => s.baseValue b + d

/-! ### Locations and sources -/

/-- R118: an 8-bit location. -/
inductive Loc8
  | reg (r : Reg8)
  | mem (m : MemRef)
  deriving DecidableEq, Repr

/-- R118: a 16-bit location. -/
inductive Loc16
  | reg (r : Reg16)
  | sreg (q : SReg)
  | mem (m : MemRef)
  deriving DecidableEq, Repr

/-- R118: an 8-bit source. -/
inductive Src8
  | loc (l : Loc8)
  | imm (v : Byte)
  deriving DecidableEq, Repr

/-- R118: a 16-bit source; an immediate is already sign-extended where R79 says so. -/
inductive Src16
  | loc (l : Loc16)
  | imm (v : Word)
  deriving DecidableEq, Repr

/-- R118: `ReadOp` of an 8-bit location; R54: the address is the effective address itself. -/
def State.readLoc8 (s : State) : Loc8 → Byte
  | .reg r => s.reg8 r
  | .mem m => s.readByte (s.ea m).toNat

/-- R118: `ReadOp` of a 16-bit location. -/
def State.readLoc16 (s : State) : Loc16 → Word
  | .reg r => s.reg16 r
  | .sreg q => s.sreg q
  | .mem m => s.readWord (s.ea m).toNat

/-- R118: `ReadOp` of an 8-bit source. -/
def State.readSrc8 (s : State) : Src8 → Byte
  | .loc l => s.readLoc8 l
  | .imm v => v

/-- R118: `ReadOp` of a 16-bit source. -/
def State.readSrc16 (s : State) : Src16 → Word
  | .loc l => s.readLoc16 l
  | .imm v => v

/-- R119: `WriteOp` to an 8-bit location. -/
def State.writeLoc8 (s : State) (l : Loc8) (v : Byte) : State :=
  match l with
  | .reg r => s.setReg8 r v
  | .mem m => s.writeByte (s.ea m).toNat v

/-- R119: `WriteOp` to a 16-bit location. -/
def State.writeLoc16 (s : State) (l : Loc16) (v : Word) : State :=
  match l with
  | .reg r => s.setReg16 r v
  | .sreg q => s.setSreg q v
  | .mem m => s.writeWord (s.ea m).toNat v

/-! ### Operand roles -/

/-- R88: a destination and a source of one width. An immediate is never a destination (R119). -/
inductive Roles
  | byte (dst : Loc8) (src : Src8)
  | word (dst : Loc16) (src : Src16)
  deriving DecidableEq, Repr

/-- R83: the r/m operand of width 8. -/
def rmLoc8 : Rm Reg8 → Loc8
  | .reg r => .reg r
  | .mem m => .mem m

/-- R83: the r/m operand of width 16. -/
def rmLoc16 : Rm Reg16 → Loc16
  | .reg r => .reg r
  | .mem m => .mem m

/-- R88: `_RM_REG`; `d = 0` makes the r/m operand the destination, `d = 1` the register. -/
def rmRegRoles (d : Dir) : RmReg → Roles
  | .byte rm reg =>
    match d with
    | .fromReg => .byte (rmLoc8 rm) (.loc (.reg reg))
    | .toReg => .byte (.reg reg) (.loc (rmLoc8 rm))
  | .word rm reg =>
    match d with
    | .fromReg => .word (rmLoc16 rm) (.loc (.reg reg))
    | .toReg => .word (.reg reg) (.loc (rmLoc16 rm))

/-- R88: MOV_IMM_REG. -/
def regImmRoles : RegImm → Roles
  | .byte reg imm => .byte (.reg reg) (.imm imm)
  | .word reg imm => .word (.reg reg) (.imm imm)

/-- R88: MOV_IMM_RM. -/
def rmImmRoles : RmImm → Roles
  | .byte rm imm => .byte (rmLoc8 rm) (.imm imm)
  | .word rm imm => .word (rmLoc16 rm) (.imm imm)

/-- R79, R80, R88: the ALU `_IMM_RM` forms; with `s = 1, w = 1` the immediate byte is sign-extended to 16 bits. -/
def rmImmAluRoles : RmImmAlu → Roles
  | .byte _ rm imm => .byte (rmLoc8 rm) (.imm imm)
  | .word rm imm => .word (rmLoc16 rm) (.imm imm)
  | .wordSx rm imm => .word (rmLoc16 rm) (.imm (sext16 imm))

/-- R88, R165: the accumulator forms, al or ax. -/
def accImmRoles : AccImm → Roles
  | .byte imm => .byte (.reg .al) (.imm imm)
  | .word imm => .word (.reg .ax) (.imm imm)

/-- R88, R144: MOV_MEM_ACC. -/
def memAccRoles (w : Width) (addr : Word) : Roles :=
  match w with
  | .byte => .byte (.reg .al) (.loc (.mem (.direct addr)))
  | .word => .word (.reg .ax) (.loc (.mem (.direct addr)))

/-- R88, R145: MOV_ACC_MEM. -/
def accMemRoles (w : Width) (addr : Word) : Roles :=
  match w with
  | .byte => .byte (.mem (.direct addr)) (.loc (.reg .al))
  | .word => .word (.mem (.direct addr)) (.loc (.reg .ax))

/-- R86, R88, R146: MOV_RM_SREG, always 16 bits. -/
def rmSregRoles (sr : SReg) (rm : Rm Reg16) : Roles := .word (.sreg sr) (.loc (rmLoc16 rm))

/-- R86, R88, R147: MOV_SREG_RM, always 16 bits. -/
def sregRmRoles (sr : SReg) (rm : Rm Reg16) : Roles := .word (rmLoc16 rm) (.loc (.sreg sr))

/-- R89: what a decoded instruction operates on, a destination and a source, or the branch operand alone. -/
inductive Operands
  | two (roles : Roles)
  | jump (rel : Byte)
  deriving DecidableEq, Repr

/-- R88, R89: the operands of an instruction. -/
def operandsOf : Instr → Operands
  | .movRmReg d o => .two (rmRegRoles d o)
  | .movRmSreg _ sr rm => .two (rmSregRoles sr rm)
  | .movSregRm _ sr rm => .two (sregRmRoles sr rm)
  | .movImmReg o => .two (regImmRoles o)
  | .movImmRm _ o => .two (rmImmRoles o)
  | .movMemAcc w a => .two (memAccRoles w a)
  | .movAccMem w a => .two (accMemRoles w a)
  | .addRmReg d o => .two (rmRegRoles d o)
  | .addImmRm o => .two (rmImmAluRoles o)
  | .addImmAcc o => .two (accImmRoles o)
  | .subRmReg d o => .two (rmRegRoles d o)
  | .subImmRm o => .two (rmImmAluRoles o)
  | .subImmAcc o => .two (accImmRoles o)
  | .cmpRmReg d o => .two (rmRegRoles d o)
  | .cmpImmRm o => .two (rmImmAluRoles o)
  | .cmpImmAcc o => .two (accImmRoles o)
  | .jo rel => .jump rel
  | .jno rel => .jump rel
  | .jb rel => .jump rel
  | .jnb rel => .jump rel
  | .je rel => .jump rel
  | .jne rel => .jump rel
  | .jbe rel => .jump rel
  | .ja rel => .jump rel
  | .js rel => .jump rel
  | .jns rel => .jump rel
  | .jp rel => .jump rel
  | .jnp rel => .jump rel
  | .jl rel => .jump rel
  | .jnl rel => .jump rel
  | .jle rel => .jump rel
  | .jg rel => .jump rel
  | .loopnz rel => .jump rel
  | .loopz rel => .jump rel
  | .loop rel => .jump rel
  | .jcxz rel => .jump rel

end Sys2Proof.Machine
end

