-- ==== Sys2Proof/Machine/Flags.lean ====
section
/-! DEFINITION. The flag computations (spec/10_state.md R30, R31) and the ALU result (spec/42_alu.md R160, R161). ZF and SF are all
the flags there are (R32). -/

namespace Sys2Proof.Machine

/-- R31: ZF and SF of a truncated result of width `n`, 8 or 16. -/
def flagsOf {n : Nat} (res : BitVec n) : Flags := { zf := res == 0#n, sf := res.msb }

/-- R160: the three ALU operations. -/
inductive AluOp
  | add
  | sub
  | cmp
  deriving DecidableEq, Repr

/-- R160, R161: `trunc_N(a + b)` for ADD, `trunc_N(a - b)` for SUB and CMP, modulo 2^n. -/
def AluOp.result {n : Nat} (op : AluOp) (a b : BitVec n) : BitVec n :=
  match op with
  | .add => a + b
  | .sub => a - b
  | .cmp => a - b

/-- R160: CMP stores its result nowhere. -/
def AluOp.stores : AluOp → Bool
  | .add => true
  | .sub => true
  | .cmp => false

end Sys2Proof.Machine
end

