-- ==== Sys2Proof/Machine/Alu.lean ====
section
/-! DEFINITION. The ALU family ADD, SUB, CMP (spec/42_alu.md R160 to R172). -/

namespace Sys2Proof.Machine

/-- R160, R162, R172: both operands are read, the truncated result sets ZF and SF, ADD and SUB store it, then `ip <- ip + n`. -/
def alu (op : AluOp) (roles : Roles) (n : Nat) (s : State) : Host.Outcome State Fault Refusal :=
  match roles with
  | .byte dst src =>
    let r := op.result (s.readLoc8 dst) (s.readSrc8 src)
    .next (((if op.stores then s.writeLoc8 dst r else s).setFlags (flagsOf r)).advance n)
  | .word dst src =>
    let r := op.result (s.readLoc16 dst) (s.readSrc16 src)
    .next (((if op.stores then s.writeLoc16 dst r else s).setFlags (flagsOf r)).advance n)

/-- R163: ADD of register/memory and register. -/
def execAddRmReg (d : Dir) (o : RmReg) (s : State) : Host.Outcome State Fault Refusal :=
  alu .add (rmRegRoles d o) (Instr.addRmReg d o).length s

/-- R164: ADD of an immediate and register/memory, by sub-opcode. -/
def execAddImmRm (o : RmImmAlu) (s : State) : Host.Outcome State Fault Refusal :=
  alu .add (rmImmAluRoles o) (Instr.addImmRm o).length s

/-- R165: ADD of an immediate and the accumulator. -/
def execAddImmAcc (o : AccImm) (s : State) : Host.Outcome State Fault Refusal :=
  alu .add (accImmRoles o) (Instr.addImmAcc o).length s

/-- R166: SUB of register/memory and register. -/
def execSubRmReg (d : Dir) (o : RmReg) (s : State) : Host.Outcome State Fault Refusal :=
  alu .sub (rmRegRoles d o) (Instr.subRmReg d o).length s

/-- R167: SUB of an immediate and register/memory, by sub-opcode. -/
def execSubImmRm (o : RmImmAlu) (s : State) : Host.Outcome State Fault Refusal :=
  alu .sub (rmImmAluRoles o) (Instr.subImmRm o).length s

/-- R168: SUB of an immediate and the accumulator. -/
def execSubImmAcc (o : AccImm) (s : State) : Host.Outcome State Fault Refusal :=
  alu .sub (accImmRoles o) (Instr.subImmAcc o).length s

/-- R169: CMP of register/memory and register. -/
def execCmpRmReg (d : Dir) (o : RmReg) (s : State) : Host.Outcome State Fault Refusal :=
  alu .cmp (rmRegRoles d o) (Instr.cmpRmReg d o).length s

/-- R170: CMP of an immediate and register/memory, by sub-opcode. -/
def execCmpImmRm (o : RmImmAlu) (s : State) : Host.Outcome State Fault Refusal :=
  alu .cmp (rmImmAluRoles o) (Instr.cmpImmRm o).length s

/-- R171: CMP of an immediate and the accumulator. -/
def execCmpImmAcc (o : AccImm) (s : State) : Host.Outcome State Fault Refusal :=
  alu .cmp (accImmRoles o) (Instr.cmpImmAcc o).length s

end Sys2Proof.Machine
end

