-- ==== Sys2Proof/Machine/Branch.lean ====
section
/-! DEFINITION. The short jumps and loops (spec/43_branch.md R180 to R205). Only JE, JNE, JS and JNS have a condition; the condition of
the other sixteen is the constant `false` (R181), and no jump reads or writes cx (R202). -/

namespace Sys2Proof.Machine

/-- R180: the target `ip + n + rel`, `n = 2`, an integer. -/
def branchTarget (ip : Nat) (rel : Byte) : Int := (ip : Int) + 2 + signed8 rel

/-- R180, R213: a taken branch redirects `ip`, or ends the run with `BranchTargetNegative` when its target is negative (D7); a branch
that is not taken falls through. -/
def branch (cond : Bool) (byte0 : Byte) (rel : Byte) (s : State) : Host.Outcome State Fault Refusal :=
  if cond then
    if branchTarget s.ip rel < 0 then
      .next (s.raise .branchTargetNegative { ip := s.ip, byte0 := byte0, rel := some (signed8 rel) })
    else .next (s.jumpTo (branchTarget s.ip rel).toNat)
  else .next (s.advance 2)

/-- R182: JO, `branch(false)`, never taken. -/
def execJo (rel : Byte) (s : State) : Host.Outcome State Fault Refusal :=
  branch false 0x70#8 rel s

/-- R183: JNO, `branch(false)`, never taken. -/
def execJno (rel : Byte) (s : State) : Host.Outcome State Fault Refusal :=
  branch false 0x71#8 rel s

/-- R184: JB, `branch(false)`, never taken. -/
def execJb (rel : Byte) (s : State) : Host.Outcome State Fault Refusal :=
  branch false 0x72#8 rel s

/-- R185: JNB, `branch(false)`, never taken. -/
def execJnb (rel : Byte) (s : State) : Host.Outcome State Fault Refusal :=
  branch false 0x73#8 rel s

/-- R186: JE, `branch(ZF)`. -/
def execJe (rel : Byte) (s : State) : Host.Outcome State Fault Refusal :=
  branch s.flags.zf 0x74#8 rel s

/-- R187: JNE, `branch(not ZF)`. -/
def execJne (rel : Byte) (s : State) : Host.Outcome State Fault Refusal :=
  branch (!s.flags.zf) 0x75#8 rel s

/-- R188: JBE, `branch(false)`, never taken. -/
def execJbe (rel : Byte) (s : State) : Host.Outcome State Fault Refusal :=
  branch false 0x76#8 rel s

/-- R189: JA, `branch(false)`, never taken. -/
def execJa (rel : Byte) (s : State) : Host.Outcome State Fault Refusal :=
  branch false 0x77#8 rel s

/-- R190: JS, `branch(SF)`. -/
def execJs (rel : Byte) (s : State) : Host.Outcome State Fault Refusal :=
  branch s.flags.sf 0x78#8 rel s

/-- R191: JNS, `branch(not SF)`. -/
def execJns (rel : Byte) (s : State) : Host.Outcome State Fault Refusal :=
  branch (!s.flags.sf) 0x79#8 rel s

/-- R192: JP, `branch(false)`, never taken. -/
def execJp (rel : Byte) (s : State) : Host.Outcome State Fault Refusal :=
  branch false 0x7A#8 rel s

/-- R193: JNP, `branch(false)`, never taken. -/
def execJnp (rel : Byte) (s : State) : Host.Outcome State Fault Refusal :=
  branch false 0x7B#8 rel s

/-- R194: JL, `branch(false)`, never taken. -/
def execJl (rel : Byte) (s : State) : Host.Outcome State Fault Refusal :=
  branch false 0x7C#8 rel s

/-- R195: JNL, `branch(false)`, never taken. -/
def execJnl (rel : Byte) (s : State) : Host.Outcome State Fault Refusal :=
  branch false 0x7D#8 rel s

/-- R196: JLE, `branch(false)`, never taken. -/
def execJle (rel : Byte) (s : State) : Host.Outcome State Fault Refusal :=
  branch false 0x7E#8 rel s

/-- R197: JG, `branch(false)`, never taken. -/
def execJg (rel : Byte) (s : State) : Host.Outcome State Fault Refusal :=
  branch false 0x7F#8 rel s

/-- R198: LOOPNZ, `branch(false)`, never taken. -/
def execLoopnz (rel : Byte) (s : State) : Host.Outcome State Fault Refusal :=
  branch false 0xE0#8 rel s

/-- R199: LOOPZ, `branch(false)`, never taken. -/
def execLoopz (rel : Byte) (s : State) : Host.Outcome State Fault Refusal :=
  branch false 0xE1#8 rel s

/-- R200: LOOP, `branch(false)`, never taken. -/
def execLoop (rel : Byte) (s : State) : Host.Outcome State Fault Refusal :=
  branch false 0xE2#8 rel s

/-- R201: JCXZ, `branch(false)`, never taken. -/
def execJcxz (rel : Byte) (s : State) : Host.Outcome State Fault Refusal :=
  branch false 0xE3#8 rel s

end Sys2Proof.Machine
end

