-- ==== Sys2Proof/Machine/Mov.lean ====
section
/-! DEFINITION. The MOV family (spec/41_mov.md R140 to R148). -/

namespace Sys2Proof.Machine

/-- R140, R148: `WriteOp(dst, ReadOp(src))`, the source read first, then `ip <- ip + n`; no flag is touched. -/
def mov (roles : Roles) (n : Nat) (s : State) : Host.Outcome State Fault Refusal :=
  match roles with
  | .byte dst src => .next ((s.writeLoc8 dst (s.readSrc8 src)).advance n)
  | .word dst src => .next ((s.writeLoc16 dst (s.readSrc16 src)).advance n)

/-- R141: MOV between register/memory and register. -/
def execMovRmReg (d : Dir) (o : RmReg) (s : State) : Host.Outcome State Fault Refusal :=
  mov (rmRegRoles d o) (Instr.movRmReg d o).length s

/-- R146: MOV from register/memory to a segment register; the ignored bit (R84) has no effect. -/
def execMovRmSreg (ignored : BitVec 1) (sr : SReg) (rm : Rm Reg16) (s : State) : Host.Outcome State Fault Refusal :=
  mov (rmSregRoles sr rm) (Instr.movRmSreg ignored sr rm).length s

/-- R147: MOV from a segment register to register/memory; the ignored bit (R84) has no effect. -/
def execMovSregRm (ignored : BitVec 1) (sr : SReg) (rm : Rm Reg16) (s : State) : Host.Outcome State Fault Refusal :=
  mov (sregRmRoles sr rm) (Instr.movSregRm ignored sr rm).length s

/-- R142: MOV of an immediate to a register. -/
def execMovImmReg (o : RegImm) (s : State) : Host.Outcome State Fault Refusal :=
  mov (regImmRoles o) (Instr.movImmReg o).length s

/-- R143: MOV of an immediate to register/memory; the ignored field (R85) has no effect. -/
def execMovImmRm (ignored : BitVec 3) (o : RmImm) (s : State) : Host.Outcome State Fault Refusal :=
  mov (rmImmRoles o) (Instr.movImmRm ignored o).length s

/-- R144: MOV from memory to the accumulator. -/
def execMovMemAcc (w : Width) (addr : Word) (s : State) : Host.Outcome State Fault Refusal :=
  mov (memAccRoles w addr) (Instr.movMemAcc w addr).length s

/-- R145: MOV from the accumulator to memory. -/
def execMovAccMem (w : Width) (addr : Word) (s : State) : Host.Outcome State Fault Refusal :=
  mov (accMemRoles w addr) (Instr.movAccMem w addr).length s

end Sys2Proof.Machine
end

