-- ==== Sys2Proof/Machine/Dispatch.lean ====
section
/-! DEFINITION. Which meaning each instruction has (spec/40_sequencer_and_renderer.md R107, `execute`). -/

namespace Sys2Proof.Machine

def exec (i : Instr) (s : State) : Host.Outcome State Fault Refusal :=
  match i with
  | .movRmReg d o => Sys2Proof.Machine.execMovRmReg d o s
  | .movRmSreg g sr rm => Sys2Proof.Machine.execMovRmSreg g sr rm s
  | .movSregRm g sr rm => Sys2Proof.Machine.execMovSregRm g sr rm s
  | .movImmReg o => Sys2Proof.Machine.execMovImmReg o s
  | .movImmRm g o => Sys2Proof.Machine.execMovImmRm g o s
  | .movMemAcc w a => Sys2Proof.Machine.execMovMemAcc w a s
  | .movAccMem w a => Sys2Proof.Machine.execMovAccMem w a s
  | .addRmReg d o => Sys2Proof.Machine.execAddRmReg d o s
  | .addImmRm o => Sys2Proof.Machine.execAddImmRm o s
  | .addImmAcc o => Sys2Proof.Machine.execAddImmAcc o s
  | .subRmReg d o => Sys2Proof.Machine.execSubRmReg d o s
  | .subImmRm o => Sys2Proof.Machine.execSubImmRm o s
  | .subImmAcc o => Sys2Proof.Machine.execSubImmAcc o s
  | .cmpRmReg d o => Sys2Proof.Machine.execCmpRmReg d o s
  | .cmpImmRm o => Sys2Proof.Machine.execCmpImmRm o s
  | .cmpImmAcc o => Sys2Proof.Machine.execCmpImmAcc o s
  | .jo rel => Sys2Proof.Machine.execJo rel s
  | .jno rel => Sys2Proof.Machine.execJno rel s
  | .jb rel => Sys2Proof.Machine.execJb rel s
  | .jnb rel => Sys2Proof.Machine.execJnb rel s
  | .je rel => Sys2Proof.Machine.execJe rel s
  | .jne rel => Sys2Proof.Machine.execJne rel s
  | .jbe rel => Sys2Proof.Machine.execJbe rel s
  | .ja rel => Sys2Proof.Machine.execJa rel s
  | .js rel => Sys2Proof.Machine.execJs rel s
  | .jns rel => Sys2Proof.Machine.execJns rel s
  | .jp rel => Sys2Proof.Machine.execJp rel s
  | .jnp rel => Sys2Proof.Machine.execJnp rel s
  | .jl rel => Sys2Proof.Machine.execJl rel s
  | .jnl rel => Sys2Proof.Machine.execJnl rel s
  | .jle rel => Sys2Proof.Machine.execJle rel s
  | .jg rel => Sys2Proof.Machine.execJg rel s
  | .loopnz rel => Sys2Proof.Machine.execLoopnz rel s
  | .loopz rel => Sys2Proof.Machine.execLoopz rel s
  | .loop rel => Sys2Proof.Machine.execLoop rel s
  | .jcxz rel => Sys2Proof.Machine.execJcxz rel s

end Sys2Proof.Machine
end

