-- ==== Sys2Proof/Machine/Render.lean ====
section
/-! DEFINITION. The operand renderer, the block's assembler text (spec/40_sequencer_and_renderer.md R109 to R117). Rendering is a
function of the instruction alone; a branch operand is never added to `ip` (R106, R114). -/

namespace Sys2Proof.Machine

/-- R115: base-10 text, `-` before a negative value, no `+` and no leading zeros. -/
def dec (v : Int) : String :=
  match v with
  | .ofNat n => String.ofList (Nat.toDigits 10 n)
  | .negSucc n => "-" ++ String.ofList (Nat.toDigits 10 (n + 1))

/-- R109: the name of a 16-bit register. -/
def reg16Name : Reg16 → String
  | .ax => "ax" | .cx => "cx" | .dx => "dx" | .bx => "bx" | .sp => "sp" | .bp => "bp" | .si => "si" | .di => "di"

/-- R109: the name of an 8-bit view. -/
def reg8Name : Reg8 → String
  | .al => "al" | .cl => "cl" | .dl => "dl" | .bl => "bl" | .ah => "ah" | .ch => "ch" | .dh => "dh" | .bh => "bh"

/-- R109: the name of a segment register. -/
def sregName : SReg → String
  | .es => "es" | .cs => "cs" | .ss => "ss" | .ds => "ds"

/-- R110: the base and index expression text. -/
def baseText : Base → String
  | .bxSi => "bx + si" | .bxDi => "bx + di" | .bpSi => "bp + si" | .bpDi => "bp + di"
  | .si => "si" | .di => "di" | .bp => "bp" | .bx => "bx"

/-- R110: the displacement suffix, empty when the displacement is zero. -/
def dispText (d : Int) : String :=
  if d = 0 then "" else if 0 < d then " + " ++ dec d else " - " ++ dec (-d)

/-- R110, R111 (D10, D12): a memory operand; a direct address is unsigned. -/
def memText : MemRef → String
  | .direct a => "[" ++ dec a.toNat ++ "]"
  | .plain b => "[" ++ baseText b ++ "]"
  | .disp8 b d => "[" ++ baseText b ++ dispText (signed8 d) ++ "]"
  | .disp16 b d => "[" ++ baseText b ++ dispText (signed16 d) ++ "]"

def loc8Text : Loc8 → String
  | .reg r => reg8Name r
  | .mem m => memText m

def loc16Text : Loc16 → String
  | .reg r => reg16Name r
  | .sreg q => sregName q
  | .mem m => memText m

/-- R81, R112: an immediate of width 8 renders as `signed_8`. -/
def src8Text : Src8 → String
  | .loc l => loc8Text l
  | .imm v => dec (signed8 v)

/-- R81, R112: an immediate of width 16 renders as `signed_16`. -/
def src16Text : Src16 → String
  | .loc l => loc16Text l
  | .imm v => dec (signed16 v)

/-- R68, R116: the mnemonic of a kind. -/
def mnemonicOf : Kind → String
  | .movRmReg => "mov"
  | .movRmSreg => "mov"
  | .movSregRm => "mov"
  | .movImmReg => "mov"
  | .movImmRm => "mov"
  | .movMemAcc => "mov"
  | .movAccMem => "mov"
  | .addRmReg => "add"
  | .addImmRm => "add"
  | .addImmAcc => "add"
  | .subRmReg => "sub"
  | .subImmRm => "sub"
  | .subImmAcc => "sub"
  | .cmpRmReg => "cmp"
  | .cmpImmRm => "cmp"
  | .cmpImmAcc => "cmp"
  | .jo => "jo"
  | .jno => "jno"
  | .jb => "jb"
  | .jnb => "jnb"
  | .je => "je"
  | .jne => "jne"
  | .jbe => "jbe"
  | .ja => "ja"
  | .js => "js"
  | .jns => "jns"
  | .jp => "jp"
  | .jnp => "jnp"
  | .jl => "jl"
  | .jnl => "jnl"
  | .jle => "jle"
  | .jg => "jg"
  | .loopnz => "loopnz"
  | .loopz => "loopz"
  | .loop => "loop"
  | .jcxz => "jcxz"

/-- R113: the kinds that may carry a size keyword. -/
def isImmRm : Kind → Bool
  | .movImmRm => true
  | .addImmRm => true
  | .subImmRm => true
  | .cmpImmRm => true
  | _ => false

/-- R113 (D13): the size keyword before the immediate, exactly when the kind is an `_IMM_RM` and the destination is memory. -/
def keyword (k : Kind) : Roles → String
  | .byte (.mem _) _ => if isImmRm k then "byte " else ""
  | .word (.mem _) _ => if isImmRm k then "word " else ""
  | .byte (.reg _) _ => ""
  | .word (.reg _) _ => ""
  | .word (.sreg _) _ => ""

/-- R117: `dst, src`. -/
def rolesText (k : Kind) (r : Roles) : String :=
  match r with
  | .byte dst src => loc8Text dst ++ ", " ++ keyword k r ++ src8Text src
  | .word dst src => loc16Text dst ++ ", " ++ keyword k r ++ src16Text src

/-- R117: the operand text; R114: a branch operand is its signed decimal. -/
def operandText (k : Kind) : Operands → String
  | .two r => rolesText k r
  | .jump rel => dec (signed8 rel)

/-- R117: the disassembly line of an instruction. -/
def render (i : Instr) : String := mnemonicOf i.kind ++ " " ++ operandText i.kind (operandsOf i)

end Sys2Proof.Machine
end

