-- ==== Sys2Proof/Machine/Trace.lean ====
section
/-! DEFINITION. Change records and their annotation text (spec/40_sequencer_and_renderer.md R121 to R126). -/

namespace Sys2Proof.Machine

/-! ### Change records -/

/-- R122: the register record of a 16-bit register, if its value changed. -/
def reg16Change (r : Reg16) (s t : State) : List Change :=
  if s.reg16 r = t.reg16 r then [] else [.reg r (s.reg16 r) (t.reg16 r)]

/-- R122: the register record of a segment register, if its value changed. -/
def sregChange (q : SReg) (s t : State) : List Change :=
  if s.sreg q = t.sreg q then [] else [.sreg q (s.sreg q) (t.sreg q)]

/-- R122 (D17, D19): the record of the destination; an 8-bit view is recorded under its parent, and memory has no record. -/
def destChange (roles : Roles) (s t : State) : List Change :=
  match roles with
  | .byte (.reg r) _ => reg16Change r.parent s t
  | .byte (.mem _) _ => []
  | .word (.reg r) _ => reg16Change r s t
  | .word (.sreg q) _ => sregChange q s t
  | .word (.mem _) _ => []

/-- R122: the `ip` record. -/
def ipChange (s t : State) : List Change := if t.ip = s.ip then [] else [.ip s.ip t.ip]

/-- R122: the `flags` record. -/
def flagsChange (s t : State) : List Change := if s.flags = t.flags then [] else [.flags s.flags t.flags]

/-- R122: the register record of an instruction; a jump has none. -/
def registerChange (i : Instr) (s t : State) : List Change :=
  match operandsOf i with
  | .two roles => destChange roles s t
  | .jump _ => []

/-- R122, R123: the records of an instruction that took the state from `s` to `t`, in order: register, `ip`, `flags`. -/
def changesOf (i : Instr) (s t : State) : List Change := registerChange i s t ++ ipChange s t ++ flagsChange s t

/-! ### Annotation text -/

/-- R125 (D16): `0x` and lowercase hexadecimal digits, no leading zeros. -/
def hex (v : Nat) : String := "0x" ++ String.ofList (Nat.toDigits 16 v)

/-- R125 (D18): `Z` if ZF, then `S` if SF. -/
def flagsText (f : Flags) : String := (if f.zf then "Z" else "") ++ (if f.sf then "S" else "")

/-- R124: one segment of the annotation. -/
def changeText : Change → String
  | .reg r o n => reg16Name r ++ ":" ++ hex o.toNat ++ "->" ++ hex n.toNat
  | .sreg q o n => sregName q ++ ":" ++ hex o.toNat ++ "->" ++ hex n.toNat
  | .ip o n => "ip:" ++ hex o ++ "->" ++ hex n
  | .flags o n => "flags:" ++ flagsText o ++ "->" ++ flagsText n

/-- R124: each segment after one space. -/
def segmentsText : List Change → String
  | [] => ""
  | c :: cs => " " ++ changeText c ++ segmentsText cs

/-- R124 (D27): no suffix at all when there is no record. -/
def annotation : List Change → String
  | [] => ""
  | c :: cs => " ;" ++ segmentsText (c :: cs)

end Sys2Proof.Machine
end

