-- ==== Sys2Proof/Machine/Sequencer.lean ====
section
/-! DEFINITION. The instruction pointer sequencer, the Fetch Engine (spec/40_sequencer_and_renderer.md R100 to R107, spec/60_exceptions.md
R210 to R214): what is fetched at `ip`, how a fetch that fails ends the run, and how a completed instruction is committed. -/

namespace Sys2Proof.Machine

/-- R101, R102, R103: the bytes come from `CODE` at `ip`, never from Memory; with none left the run is exhausted. The contexts are
those of R211 and R212. -/
def State.fetch (s : State) : Fetched :=
  match decode (s.code.drop s.ip) with
  | .ok (i, _) => .decoded i
  | .error .noByte => .exhausted
  | .error (.unsupported b0 b1) => .failed .unsupportedEncoding { ip := s.ip, byte0 := b0, byte1 := b1 }
  | .error (.truncated b0 needed available) =>
    .failed .truncatedInstruction { ip := s.ip, byte0 := b0, needed := some needed, available := some available }

/-- R103, R106: a completed `Disassemble` step emits the rendered line and falls through to the next instruction. -/
def State.retireDisassembled (s : State) (i : Instr) : State :=
  { s.advance i.length with lines := s.lines ++ [render i] }

/-- R103, R107, R124: the commit of a `Simulate` step whose execution took `s` to `t`: the annotated line and the change records are
emitted. An execution that ended the run in an error emits nothing (R128, R217). -/
def State.retireSimulated (s : State) (i : Instr) (t : State) : State :=
  if t.status = .running then
    { t with lines := t.lines ++ [render i ++ annotation (changesOf i s t)], changes := t.changes ++ [changesOf i s t] }
  else t

/-- The commit around what `execute` answers. -/
def retireOutcome (s : State) (i : Instr) : Host.Outcome State Fault Refusal → Host.Outcome State Fault Refusal
  | .next t => .next (s.retireSimulated i t)
  | .fault r => .fault r
  | .refused r => .refused r

/-- The image with `bytes` placed at offset `ip`, zeros filling a gap before it. -/
def placeBytes (code : List Byte) (ip : Nat) (bytes : List Byte) : List Byte :=
  code.take ip ++ List.replicate (ip - code.length) 0#8 ++ bytes ++ code.drop (ip + bytes.length)

/-- The entries of a memory that still differ from the reset contents of another image. -/
def Memory.rebase (code : List Byte) (m : Memory) : Memory := m.filter (fun c => c.2 != resetByte code c.1)

end Sys2Proof.Machine
end

