-- ==== Sys2Proof/Machine/Step.lean ====
section
/-! DEFINITION. One step (spec/40_sequencer_and_renderer.md R103). -/

namespace Sys2Proof.Machine

/-- R103: with the status `Running`, exhaustion, a decode error, or one instruction, atomic (R10). A step is enabled in no other
status (R35): a run that ended in an error stays at that fault (R228, log entry 3), an exhausted one takes no step (log entry 4). -/
def step (s : State) : Host.Outcome State Fault Refusal :=
  match s.status with
  | .exhausted => .fault .runEnded
  | .error kind context => .fault (.fatal kind context)
  | .running =>
    match s.fetch with
    | .exhausted => .next s.exhaust
    | .failed kind context => .next (s.raise kind context)
    | .decoded i =>
      match s.mode with
      | .disassemble => .next (s.retireDisassembled i)
      | .simulate => retireOutcome s i (exec i s)

/-- The state with a table row's instruction, zeros after it, placed in `CODE` at `ip` and the run status `Running`, so that the next
step fetches exactly it (log entry 9). -/
def State.withFetchWord (s : State) (nbits w : Nat) : State :=
  let code := placeBytes s.code s.ip (tableBytes nbits w)
  { s with code := code, mem := s.mem.rebase code, status := .running }

end Sys2Proof.Machine
end

