-- ==== Sys2Proof/Machine/Phases.lean ====
section
/-! DEFINITION. The Fetch Engine's state machine (spec/40_sequencer_and_renderer.md R100), the internal phases of one step (R10, R34). It
stands beside `step`, which is R103's procedure; the two are stated equal in Certificates/Slice0/Obligations.lean. -/

namespace Sys2Proof.Machine

/-- R34, R100: the phases inside a step, each with the transient values it holds. -/
inductive Phase
  | fetching
  | classified (b0 : Byte) (row : EncRow)
  | lengthResolved (row : EncRow) (chunk : List Byte)
  | decoded (i : Instr) (result : Host.Outcome State Fault Refusal)

/-- R100: a transition goes on to another phase or ends the step. -/
inductive PhaseMove
  | goto (p : Phase)
  | done (o : Host.Outcome State Fault Refusal)

/-- R100: `Fetching → Classified`, or `Exhausted`, or `UnsupportedEncoding`: "read one byte at the current instruction pointer;
classify it". -/
def fromFetching (s : State) : PhaseMove :=
  match s.code.drop s.ip with
  | [] => .done (.next s.exhaust)
  | b0 :: _ =>
    match classify b0 with
    | none => .done (.next (s.raise .unsupportedEncoding { ip := s.ip, byte0 := b0 }))
    | some row => .goto (.classified b0 row)

/-- R100: `Classified → LengthResolved`, or `TruncatedInstruction`: "read however many more bytes the Length Resolver demands". -/
def fromClassified (s : State) (b0 : Byte) (row : EncRow) : PhaseMove :=
  match resolveLength row b0 (s.code.drop (s.ip + 1)) with
  | .ok n => .goto (.lengthResolved row ((s.code.drop s.ip).take n))
  | .error (.truncated b needed available) =>
    .done (.next (s.raise .truncatedInstruction { ip := s.ip, byte0 := b, needed := some needed, available := some available }))
  | .error (.unsupported b b1) => .done (.next (s.raise .unsupportedEncoding { ip := s.ip, byte0 := b, byte1 := b1 }))
  | .error .noByte => .done (.next s.exhaust)

/-- R100: `LengthResolved → Decoded`, or `UnsupportedEncoding`: "resolve instruction kind …, decode operands, optionally invoke the
Simulator". -/
def fromLengthResolved (s : State) (row : EncRow) (chunk : List Byte) : PhaseMove :=
  match resolveKind row (byteAt chunk 1) with
  | none =>
    .done (.next (s.raise .unsupportedEncoding { ip := s.ip, byte0 := byteAt chunk 0, byte1 := some (byteAt chunk 1) }))
  | some k =>
    match s.mode with
    | .disassemble => .goto (.decoded (assemble k chunk) (.next s))
    | .simulate => .goto (.decoded (assemble k chunk) (exec (assemble k chunk) s))

/-- R100: `Decoded → Fetching`: the line and the changes are committed and `ip` moves on; the step is over. -/
def fromDecoded (s : State) (i : Instr) (result : Host.Outcome State Fault Refusal) : PhaseMove :=
  match s.mode with
  | .disassemble => .done (.next (s.retireDisassembled i))
  | .simulate => .done (retireOutcome s i result)

/-- R100: the transition out of a phase. -/
def phaseMove (s : State) : Phase → PhaseMove
  | .fetching => fromFetching s
  | .classified b0 row => fromClassified s b0 row
  | .lengthResolved row chunk => fromLengthResolved s row chunk
  | .decoded i result => fromDecoded s i result

/-- At most `k` transitions from a phase; the outcome, if the step is over by then. -/
def runPhases (s : State) : Nat → Phase → Option (Host.Outcome State Fault Refusal)
  | 0, _ => none
  | k + 1, p =>
    match phaseMove s p with
    | .done o => some o
    | .goto q => runPhases s k q

end Sys2Proof.Machine
end

