-- ==== Sys2Proof/Machine/Run.lean ====
section
/-! DEFINITION. The model-only executor with its `FUEL` bound (spec/00_scope.md R9, spec/70_reset_and_hazards.md R236, decision D25) and
the final outputs (spec/40_sequencer_and_renderer.md R127, spec/10_state.md R37). -/

namespace Sys2Proof.Machine

/-- R9, R228: at most `fuel` steps, stopping where no step is enabled; `fuel` reaching 0 is no outcome of the block. -/
def runFuel : Nat → State → State
  | 0, s => s
  | fuel + 1, s =>
    match step s with
    | .next t => runFuel fuel t
    | .fault _ => s
    | .refused _ => s

/-- R127, R37: what the block exposes at the end of a run; `STATUS` is the run status. -/
inductive Final
  | simulate (regs : RegFile) (segs : SegFile) (flags : Flags) (ip : Nat) (memory : List Byte) (status : Status)
  | disassemble (ip : Nat) (status : Status)
  deriving DecidableEq, Repr

/-- R127: all 1,048,576 bytes of Memory, in address order. -/
def State.memoryImage (s : State) : List Byte := (List.range Config.memorySize).map s.readByte

/-- R127, R233, R235: `FINAL`, once the run has ended; in `Disassemble` mode only the status and `ip` (R37). -/
def State.final (s : State) : Option Final :=
  match s.status with
  | .running => none
  | st =>
    match s.mode with
    | .simulate => some (.simulate s.regs s.segs s.flags s.ip s.memoryImage st)
    | .disassemble => some (.disassemble s.ip st)

end Sys2Proof.Machine
end

