-- ==== Sys2Proof/Safety.lean ====
section
/-! DEFINITION. The terms claims are stated in: what an instruction writes and keeps (its frame), what a MOV, an ALU instruction and a
jump do to a state, and the invariant of the machine. Nothing here is called by the machine. -/

namespace Sys2Proof.Machine

/-! ### Frames -/

/-- Where an instruction stores its result. -/
inductive Dest
  | nowhere
  | byte (l : Loc8)
  | word (l : Loc16)
  deriving DecidableEq, Repr

/-- The addresses a result is stored to: computed by the effective address of the state before the instruction (R54, R120). -/
def Dest.addresses (s : State) : Dest → List Nat
  | .byte (.mem m) => [(s.ea m).toNat]
  | .word (.mem m) => [(s.ea m).toNat, (s.ea m).toNat + 1]
  | .byte (.reg _) => []
  | .word (.reg _) => []
  | .word (.sreg _) => []
  | .nowhere => []

/-- Every general register but the destination is kept; of an 8-bit destination every other view is kept too (R24). -/
def Dest.regsKept (s t : State) : Dest → Prop
  | .byte (.reg r) => (∀ q : Reg16, q ≠ r.parent → t.reg16 q = s.reg16 q) ∧ (∀ q : Reg8, q ≠ r → t.reg8 q = s.reg8 q)
  | .word (.reg r) => ∀ q : Reg16, q ≠ r → t.reg16 q = s.reg16 q
  | .byte (.mem _) => ∀ q : Reg16, t.reg16 q = s.reg16 q
  | .word (.mem _) => ∀ q : Reg16, t.reg16 q = s.reg16 q
  | .word (.sreg _) => ∀ q : Reg16, t.reg16 q = s.reg16 q
  | .nowhere => ∀ q : Reg16, t.reg16 q = s.reg16 q

/-- Every segment register but the destination is kept. -/
def Dest.segsKept (s t : State) : Dest → Prop
  | .word (.sreg r) => ∀ q : SReg, q ≠ r → t.sreg q = s.sreg q
  | .word (.reg _) => ∀ q : SReg, t.sreg q = s.sreg q
  | .word (.mem _) => ∀ q : SReg, t.sreg q = s.sreg q
  | .byte _ => ∀ q : SReg, t.sreg q = s.sreg q
  | .nowhere => ∀ q : SReg, t.sreg q = s.sreg q

/-- The frame of an instruction with destination `d`: every other register, every byte of memory outside the stored bytes, the inputs,
the outputs and the run status are as before. `ip` and the flags are said apart. -/
def KeptBut (d : Dest) (s t : State) : Prop :=
  d.regsKept s t ∧ d.segsKept s t ∧ (∀ a : Nat, a ∉ d.addresses s → t.readByte a = s.readByte a) ∧
    t.code = s.code ∧ t.mode = s.mode ∧ t.status = s.status ∧ t.lines = s.lines ∧ t.changes = s.changes

/-- What the destination holds in `t`, its address taken from the state before, `s`. -/
def held8 (s t : State) : Loc8 → Byte
  | .reg r => t.reg8 r
  | .mem m => t.readByte (s.ea m).toNat

/-- What the destination holds in `t`, its address taken from the state before, `s`. -/
def held16 (s t : State) : Loc16 → Word
  | .reg r => t.reg16 r
  | .sreg q => t.sreg q
  | .mem m => t.readWord (s.ea m).toNat

/-- R52: base plus optional index as a number, from the register values of `s`. -/
def baseSum (s : State) : Base → Nat
  | .bxSi => (s.reg16 .bx).toNat + (s.reg16 .si).toNat
  | .bxDi => (s.reg16 .bx).toNat + (s.reg16 .di).toNat
  | .bpSi => (s.reg16 .bp).toNat + (s.reg16 .si).toNat
  | .bpDi => (s.reg16 .bp).toNat + (s.reg16 .di).toNat
  | .si => (s.reg16 .si).toNat
  | .di => (s.reg16 .di).toNat
  | .bp => (s.reg16 .bp).toNat
  | .bx => (s.reg16 .bx).toNat

/-! ### What an instruction does -/

/-- `i` answers a next state in which the byte `v` stands at `dst`, `ip` is past the instruction's bytes, the flags and everything else
are as before (R140). -/
def Copies8 (i : Instr) (dst : Loc8) (v : Byte) (s : State) : Prop :=
  ∃ t, exec i s = .next t ∧ held8 s t dst = v ∧ t.ip = s.ip + (encode i).length ∧ t.flags = s.flags ∧ KeptBut (.byte dst) s t

/-- `Copies8` for a word. -/
def Copies16 (i : Instr) (dst : Loc16) (v : Word) (s : State) : Prop :=
  ∃ t, exec i s = .next t ∧ held16 s t dst = v ∧ t.ip = s.ip + (encode i).length ∧ t.flags = s.flags ∧ KeptBut (.word dst) s t

/-- R160, R161: the result as a number, modulo `m`, the power of two of the operand width. -/
def aluNat (op : AluOp) (m a b : Nat) : Nat :=
  match op with
  | .add => (a + b) % m
  | .sub => (a + m - b) % m
  | .cmp => (a + m - b) % m

/-- R160: CMP has no destination. -/
def aluDest (op : AluOp) (d : Dest) : Dest :=
  match op with
  | .add => d
  | .sub => d
  | .cmp => .nowhere

/-- `i` answers a next state with ZF and SF of the 8-bit result of `a` and `b`, the result at `dst` unless the operation is CMP, `ip`
past the instruction's bytes, and everything else as before (R160, R31). -/
def Computes8 (op : AluOp) (i : Instr) (dst : Loc8) (b : Byte) (s : State) : Prop :=
  ∃ t, exec i s = .next t ∧
    (t.flags.zf = true ↔ aluNat op 256 (s.readLoc8 dst).toNat b.toNat = 0) ∧
    (t.flags.sf = true ↔ 128 ≤ aluNat op 256 (s.readLoc8 dst).toNat b.toNat) ∧
    (op ≠ .cmp → (held8 s t dst).toNat = aluNat op 256 (s.readLoc8 dst).toNat b.toNat) ∧
    t.ip = s.ip + (encode i).length ∧ KeptBut (aluDest op (.byte dst)) s t

/-- `Computes8` for the 16-bit width. -/
def Computes16 (op : AluOp) (i : Instr) (dst : Loc16) (b : Word) (s : State) : Prop :=
  ∃ t, exec i s = .next t ∧
    (t.flags.zf = true ↔ aluNat op 65536 (s.readLoc16 dst).toNat b.toNat = 0) ∧
    (t.flags.sf = true ↔ 32768 ≤ aluNat op 65536 (s.readLoc16 dst).toNat b.toNat) ∧
    (op ≠ .cmp → (held16 s t dst).toNat = aluNat op 65536 (s.readLoc16 dst).toNat b.toNat) ∧
    t.ip = s.ip + (encode i).length ∧ KeptBut (aluDest op (.word dst)) s t

/-- R217, R219: the state with its run status set to an error and nothing else changed. -/
def endedIn (s : State) (kind : ErrorKind) (context : Context) : State := { s with status := .error kind context }

/-- The jumps that are ever taken, each with its condition (R181, R186, R187, R190, R191) and first byte. -/
def takenJumps (rel : Byte) (f : Flags) : List (Instr × Bool × Byte) :=
  [(.je rel, f.zf, 0x74#8), (.jne rel, !f.zf, 0x75#8), (.js rel, f.sf, 0x78#8), (.jns rel, !f.sf, 0x79#8)]

/-- The jumps and loops that are never taken (R181). -/
def untakenJumps (rel : Byte) : List Instr :=
  [.jo rel, .jno rel, .jb rel, .jnb rel, .jbe rel, .ja rel, .jp rel, .jnp rel, .jl rel, .jnl rel, .jle rel, .jg rel,
    .loopnz rel, .loopz rel, .loop rel, .jcxz rel]

/-- R181: the mnemonics of `untakenJumps`, in its order. -/
def untakenMnemonics : List String :=
  ["jo", "jno", "jb", "jnb", "jbe", "ja", "jp", "jnp", "jl", "jnl", "jle", "jg", "loopnz", "loopz", "loop", "jcxz"]

/-- The kinds of the ALU family (R162). -/
def isAlu : Kind → Bool
  | .addRmReg => true | .addImmRm => true | .addImmAcc => true
  | .subRmReg => true | .subImmRm => true | .subImmAcc => true
  | .cmpRmReg => true | .cmpImmRm => true | .cmpImmAcc => true
  | _ => false

/-- R73: the displacement bytes that `mod` and `rm` of a mod-reg-rm byte ask for, from its bits. -/
def dispBytesOf (b1 : Byte) : Nat :=
  if b1 >>> 6 = 3#8 then 0
  else if b1 >>> 6 = 0#8 then (if b1 &&& 7#8 = 6#8 then 2 else 0)
  else (b1 >>> 6).toNat

/-- R75: the total length by class, from the bits of the first two bytes. -/
def lengthOf (cls : LenClass) (b0 b1 : Byte) : Nat :=
  match cls with
  | .regMem => 2 + dispBytesOf b1
  | .immToReg => 2 + ((b0 >>> 3) &&& 1#8).toNat
  | .immToRegMemAlu => 3 + dispBytesOf b1 + (if b0 &&& 3#8 = 1#8 then 1 else 0)
  | .immToRegMemMov => 3 + dispBytesOf b1 + (b0 &&& 1#8).toNat
  | .accImm => 2 + (b0 &&& 1#8).toNat
  | .memAcc => 3
  | .shortJump => 2

/-- R72: the 186 first bytes that are rejected, by range. -/
def rejectedFirst (b : Byte) : Prop :=
  (0x06 ≤ b.toNat ∧ b.toNat ≤ 0x27) ∨ (0x2E ≤ b.toNat ∧ b.toNat ≤ 0x37) ∨ (0x3E ≤ b.toNat ∧ b.toNat ≤ 0x6F) ∨
    (0x84 ≤ b.toNat ∧ b.toNat ≤ 0x87) ∨ b.toNat = 0x8D ∨ (0x8F ≤ b.toNat ∧ b.toNat ≤ 0x9F) ∨
    (0xA4 ≤ b.toNat ∧ b.toNat ≤ 0xAF) ∨ (0xC0 ≤ b.toNat ∧ b.toNat ≤ 0xC5) ∨ (0xC8 ≤ b.toNat ∧ b.toNat ≤ 0xDF) ∨ 0xE4 ≤ b.toNat

/-- R122: where a record stands in the list of an instruction's records. -/
def changeRank : Change → Nat
  | .reg _ _ _ => 0
  | .sreg _ _ _ => 0
  | .ip _ _ => 1
  | .flags _ _ => 2

/-! ### The invariant -/

/-- What every step keeps. Memory is in canonical form and inside the 1 MiB; the image fits in Memory (R9); a list of changes was
emitted for each line in `Simulate` mode and none in `Disassemble` mode (R11); in `Disassemble` mode the simulator's state is
untouched (R37); an error in the run status is at `ip` (R217) and never `InvalidOperandCombination` (R215). -/
structure State.Inv (s : State) : Prop where
  memory : s.mem.wf s.code = true
  image : s.code.length ≤ Config.maxImage
  traced : s.mode = .simulate → s.changes.length = s.lines.length
  records : ∀ cs ∈ s.changes, cs.length ≤ 3
  untouched : s.mode = .disassemble →
    s.regs = .reset ∧ s.segs = .reset ∧ s.flags = .reset ∧ s.mem = [] ∧ s.changes = []
  errorAtIp : ∀ k c, s.status = .error k c → c.ip = s.ip ∧ k ≠ .invalidOperandCombination

end Sys2Proof.Machine
end

