-- ==== Sys2Proof/Certificates/Slice0/Obligations.lean ====
section
/-! DEFINITION. The statements for the provers, one `def Obligations.<Name> : Prop` for each entry of OBLIGATIONS.json. -/

open Sys2Proof Sys2Proof.Machine

/-! ### Encoding -/

/-- spec/95_test_vectors.md W1, W2, W3, W5 and section 2: these byte strings decode to these instructions (the opcode bits are the
spec's general knowledge, G9). -/
def Obligations.WrittenWordsDecode : Prop :=
  decode [0x89, 0xD8] = .ok (.movRmReg .fromReg (.word (.reg .ax) .bx), []) ∧
  decode [0xB8, 0x01, 0x00] = .ok (.movImmReg (.word .ax 1), []) ∧
  decode [0x83, 0xC0, 0x05] = .ok (.addImmRm (.wordSx (.reg .ax) 5), []) ∧
  decode [0x74, 0xFE] = .ok (.je 0xFE, []) ∧
  decode [0xC7, 0x85, 0x85, 0x03, 0x5B, 0x01] = .ok (.movImmRm 0 (.word (.mem (.disp16 .di 901)) 347), []) ∧
  decode [0xA2, 0xFF, 0xFF] = .ok (.movAccMem .byte 0xFFFF, []) ∧
  decode [0x8E, 0x3F] = .ok (.movRmSreg 1 .ds (.mem (.plain .bx)), []) ∧
  decode [0x2A, 0x4F, 0x02] = .ok (.subRmReg .toReg (.byte (.mem (.disp8 .bx 2)) .cl), []) ∧
  decode [0x80, 0x3E, 0x05, 0x00, 0x01] = .ok (.cmpImmRm (.byte false (.mem (.direct 5)) 1), []) ∧
  decode [0x3D, 0x34, 0x12] = .ok (.cmpImmAcc (.word 4660), [])

/-- Decoding the encoding of a well-formed instruction gives it back, whatever follows, with every operand at every value. -/
def Obligations.EncodedInstructionDecodesToItself : Prop :=
  ∀ (i : Instr) (rest : List Byte), i.wf = true → decode (encode i ++ rest) = .ok (i, rest)

/-- What decodes is the encoding of what it decodes to: no bit and no byte of an instruction is dropped. -/
def Obligations.DecodedBytesAreTheEncoding : Prop :=
  ∀ (bs rest : List Byte) (i : Instr), decode bs = .ok (i, rest) → i.wf = true ∧ bs = encode i ++ rest

/-- R76. -/
def Obligations.LengthIsReadFromTheFirstBytes : Prop :=
  (∀ (b0 b1 c1 : Byte) (x y r q : List Byte) (i j : Instr),
    decode (b0 :: b1 :: x) = .ok (i, r) → decode (b0 :: c1 :: y) = .ok (j, q) →
    (∀ row, classify b0 = some row → row.cls.needsModRm = true → modField b1 = modField c1 ∧ rmField b1 = rmField c1) →
    x.length + 2 - r.length = y.length + 2 - q.length) ∧
  (∀ (bs rest : List Byte) (i : Instr), decode bs = .ok (i, rest) →
    decode (bs.take (bs.length - rest.length)) = .ok (i, []) ∧ bs.drop (bs.length - rest.length) = rest)

/-- R73, R75: the total length by class, from the bits of the first two bytes; 1 to 5 bytes after the first; which classes need the
second byte. -/
def Obligations.LengthByClass : Prop :=
  (∀ (b0 b1 : Byte) (x rest : List Byte) (i : Instr) (row : EncRow),
    decode (b0 :: b1 :: x) = .ok (i, rest) → classify b0 = some row →
    x.length + 2 = lengthOf row.cls b0 b1 + rest.length ∧ i.length = lengthOf row.cls b0 b1) ∧
  (∀ (cls : LenClass) (b0 b1 : Byte), 1 + 1 ≤ lengthOf cls b0 b1 ∧ lengthOf cls b0 b1 ≤ 1 + 5) ∧
  (∀ cls : LenClass, cls ∈ [.regMem, .immToRegMemAlu, .immToRegMemMov] ↔
    ∃ b0 b1 c1 : Byte, lengthOf cls b0 b1 ≠ lengthOf cls b0 c1)

/-- Every instruction is 2 to 6 bytes long, and both bounds are met (an inference the spec marks as its own, R66). -/
def Obligations.LengthsAreTwoToSix : Prop :=
  (∀ (bs rest : List Byte) (i : Instr), decode bs = .ok (i, rest) →
    2 + rest.length ≤ bs.length ∧ bs.length ≤ 6 + rest.length) ∧
  (∃ i, decode [0x70, 0x00] = .ok (i, [])) ∧ (∃ i, decode [0x81, 0x06, 0xE8, 0x03, 0x10, 0x27] = .ok (i, []))

/-- No byte matches two rows of the 34-row encoding table (an inference the spec marks as its own, R70). -/
def Obligations.EncodingRowsAreDisjoint : Prop :=
  encodingTable.length = 34 ∧
  ∀ b : Byte, ∀ r ∈ encodingTable, ∀ q ∈ encodingTable, r.hits b = true → q.hits b = true → r = q

/-- The 186 first bytes that are rejected, by the ranges of spec/30_encoding.md R72 (an inference the spec marks as its own). -/
def Obligations.RejectedFirstBytes : Prop :=
  ∀ b : Byte, classify b = none ↔ rejectedFirst b

/-- R71. -/
def Obligations.SubOpcodeSelectsTheKind : Prop :=
  (∀ (b0 b1 : Byte) (x : List Byte), 0x80 ≤ b0.toNat → b0.toNat ≤ 0x83 → lengthOf .immToRegMemAlu b0 b1 ≤ x.length + 2 →
    ((b1 >>> 3) &&& 7#8 = 0b000#8 → ∃ o r, decode (b0 :: b1 :: x) = .ok (.addImmRm o, r)) ∧
    ((b1 >>> 3) &&& 7#8 = 0b101#8 → ∃ o r, decode (b0 :: b1 :: x) = .ok (.subImmRm o, r)) ∧
    ((b1 >>> 3) &&& 7#8 = 0b111#8 → ∃ o r, decode (b0 :: b1 :: x) = .ok (.cmpImmRm o, r)) ∧
    ((b1 >>> 3) &&& 7#8 ≠ 0b000#8 → (b1 >>> 3) &&& 7#8 ≠ 0b101#8 → (b1 >>> 3) &&& 7#8 ≠ 0b111#8 →
      decode (b0 :: b1 :: x) = .error (.unsupported b0 (some b1)))) ∧
  (∀ (b0 b1 : Byte) (x : List Byte), 0x80 ≤ b0.toNat → b0.toNat ≤ 0x83 → x.length + 2 < lengthOf .immToRegMemAlu b0 b1 →
    decode (b0 :: b1 :: x) = .error (.truncated b0 (lengthOf .immToRegMemAlu b0 b1) (x.length + 2))) ∧
  (∀ (b0 : Byte) (x y r q : List Byte) (i j : Instr), (b0.toNat < 0x80 ∨ 0x83 < b0.toNat) →
    decode (b0 :: x) = .ok (i, r) → decode (b0 :: y) = .ok (j, q) → i.kind = j.kind)

/-- R95. -/
def Obligations.DecoderIsTotal : Prop :=
  ∀ s : State,
    (s.code.length ≤ s.ip → s.fetch = .exhausted) ∧
    (s.ip < s.code.length →
      (∃ i, s.fetch = .decoded i ∧ s.ip + i.length ≤ s.code.length) ∨
      (∃ c, s.fetch = .failed .unsupportedEncoding c) ∨
      (∃ c, s.fetch = .failed .truncatedInstruction c))

/-- R84, R85 (the spec's decisions D4, D5): the ignored bits change no effect, no length and no text. -/
def Obligations.IgnoredBitsHaveNoEffect : Prop :=
  (∀ (g h : BitVec 3) (o : RmImm) (s : State), exec (.movImmRm g o) s = exec (.movImmRm h o) s ∧
    render (.movImmRm g o) = render (.movImmRm h o)) ∧
  (∀ (g h : BitVec 1) (sr : SReg) (rm : Rm Reg16) (s : State), exec (.movRmSreg g sr rm) s = exec (.movRmSreg h sr rm) s ∧
    render (.movRmSreg g sr rm) = render (.movRmSreg h sr rm)) ∧
  (∀ (g h : BitVec 1) (sr : SReg) (rm : Rm Reg16) (s : State), exec (.movSregRm g sr rm) s = exec (.movSregRm h sr rm) s ∧
    render (.movSregRm g sr rm) = render (.movSregRm h sr rm))

/-! ### Registers, memory, addresses -/

/-- R24. -/
def Obligations.EightBitViewsAliasTheirParent : Prop :=
  (∀ r : Reg8, r.parent.code.toNat = r.code.toNat % 4 ∧ (r.high = true ↔ 4 ≤ r.code.toNat)) ∧
  (∀ (s : State) (r : Reg8), (s.reg8 r).toNat =
    if r.high = true then (s.reg16 r.parent).toNat / 256 else (s.reg16 r.parent).toNat % 256) ∧
  (∀ (s : State) (r : Reg8) (v : Byte),
    ((s.setReg8 r v).reg16 r.parent).toNat =
      (if r.high = true then (s.reg16 r.parent).toNat % 256 + 256 * v.toNat
       else 256 * ((s.reg16 r.parent).toNat / 256) + v.toNat) ∧
    (s.setReg8 r v).reg8 r = v ∧
    (∀ q : Reg8, q ≠ r → (s.setReg8 r v).reg8 q = s.reg8 q) ∧
    (∀ q : Reg16, q ≠ r.parent → (s.setReg8 r v).reg16 q = s.reg16 q)) ∧
  (∀ s : State, s.reg16 .ax = 0x1234#16 →
    (s.setReg8 .al 0xFF#8).reg8 .ah = 0x12#8 ∧ (s.setReg8 .al 0xFF#8).reg16 .ax = 0x12FF#16)

/-- spec/10_state.md section 2 and 3: a full register reads back what was written, both halves, and a write reaches no other register. -/
def Obligations.FullRegisterWrites : Prop :=
  (∀ (s : State) (r q : Reg16) (v : Word), (s.setReg16 r v).reg16 q = if q = r then v else s.reg16 q) ∧
  (∀ (s : State) (q : Reg8) (v : Word), (s.setReg16 q.parent v).reg8 q = if q.high = true then hiByte v else loByte v) ∧
  (∀ (s : State) (r q : SReg) (v : Word), (s.setSreg r v).sreg q = if q = r then v else s.sreg q)

/-- R48, R50. -/
def Obligations.MemoryIsLittleEndian : Prop :=
  (∀ (s : State) (a : Nat) (v : Word),
    ((s.writeWord a v).readByte a).toNat = v.toNat % 256 ∧ ((s.writeWord a v).readByte (a + 1)).toNat = v.toNat / 256) ∧
  (∀ (s : State) (a : Nat), (s.readWord a).toNat = (s.readByte a).toNat + 256 * (s.readByte (a + 1)).toNat)

/-- spec/20_memory.md section 2: a write changes the bytes it names and no other, and leaves `CODE` alone. -/
def Obligations.MemoryWritesChangeOnlyTheirBytes : Prop :=
  (∀ (s : State) (a b : Nat) (v : Byte), (s.writeByte a v).readByte b = if b = a then v else s.readByte b) ∧
  (∀ (s : State) (a b : Nat) (v : Word), b ≠ a → b ≠ a + 1 → (s.writeWord a v).readByte b = s.readByte b) ∧
  (∀ (s : State) (a : Nat) (v : Word), (s.writeWord a v).readWord a = v ∧ (s.writeWord a v).code = s.code) ∧
  (∀ (s : State) (a : Nat) (v : Byte), (s.writeByte a v).code = s.code)

/-- spec/20_memory.md section 3: the effective address of every memory form, as an integer modulo 65,536 (`bp` for rm = 110 under mod 01
and 10 is the spec's general knowledge, C7). -/
def Obligations.EffectiveAddressRule : Prop :=
  ∀ s : State,
    (∀ a : Word, s.ea (.direct a) = a) ∧
    (∀ b : Base, (s.ea (.plain b)).toNat = baseSum s b % 65536) ∧
    (∀ (b : Base) (d : Byte), ((s.ea (.disp8 b d)).toNat : Int) = (baseSum s b + d.toInt) % 65536) ∧
    (∀ (b : Base) (d : Word), ((s.ea (.disp16 b d)).toNat : Int) = (baseSum s b + d.toInt) % 65536)

/-- R54 (the spec's decision D8): a word at 0xFFFF has its high byte at 0x10000, not at 0, and no access goes further. -/
def Obligations.WordAtTheTopOfTheWindow : Prop :=
  (∀ s : State, ∃ t, exec (.movAccMem .word 0xFFFF#16) s = .next t ∧
    t.readByte 0xFFFF = loByte (s.reg16 .ax) ∧ t.readByte 0x10000 = hiByte (s.reg16 .ax) ∧ t.readByte 0 = s.readByte 0) ∧
  (∀ s : State, ∃ t, exec (.movMemAcc .word 0xFFFF#16) s = .next t ∧
    (t.reg16 .ax).toNat = (s.readByte 0xFFFF).toNat + 256 * (s.readByte 0x10000).toNat) ∧
  (∀ (s : State) (d : Dest), ∀ a ∈ d.addresses s, a ≤ 0x10000)

/-! ### MOV, ALU, jumps -/

/-- R140: every form of the seven MOV kinds, its destination and source by R88. -/
def Obligations.MovFamilyCopies : Prop :=
  (∀ (rm : Rm Reg8) (reg : Reg8) (s : State),
    Copies8 (.movRmReg .fromReg (.byte rm reg)) (rmLoc8 rm) (s.reg8 reg) s ∧
    Copies8 (.movRmReg .toReg (.byte rm reg)) (.reg reg) (s.readLoc8 (rmLoc8 rm)) s) ∧
  (∀ (rm : Rm Reg16) (reg : Reg16) (s : State),
    Copies16 (.movRmReg .fromReg (.word rm reg)) (rmLoc16 rm) (s.reg16 reg) s ∧
    Copies16 (.movRmReg .toReg (.word rm reg)) (.reg reg) (s.readLoc16 (rmLoc16 rm)) s) ∧
  (∀ (reg : Reg8) (v : Byte) (s : State), Copies8 (.movImmReg (.byte reg v)) (.reg reg) v s) ∧
  (∀ (reg : Reg16) (v : Word) (s : State), Copies16 (.movImmReg (.word reg v)) (.reg reg) v s) ∧
  (∀ (g : BitVec 3) (rm : Rm Reg8) (v : Byte) (s : State), Copies8 (.movImmRm g (.byte rm v)) (rmLoc8 rm) v s) ∧
  (∀ (g : BitVec 3) (rm : Rm Reg16) (v : Word) (s : State), Copies16 (.movImmRm g (.word rm v)) (rmLoc16 rm) v s) ∧
  (∀ (a : Word) (s : State),
    Copies8 (.movMemAcc .byte a) (.reg .al) (s.readByte a.toNat) s ∧
    Copies16 (.movMemAcc .word a) (.reg .ax) (s.readWord a.toNat) s ∧
    Copies8 (.movAccMem .byte a) (.mem (.direct a)) (s.reg8 .al) s ∧
    Copies16 (.movAccMem .word a) (.mem (.direct a)) (s.reg16 .ax) s) ∧
  (∀ (g : BitVec 1) (sr : SReg) (rm : Rm Reg16) (s : State),
    Copies16 (.movRmSreg g sr rm) (.sreg sr) (s.readLoc16 (rmLoc16 rm)) s ∧
    Copies16 (.movSregRm g sr rm) (rmLoc16 rm) (s.sreg sr) s)

/-- The three ALU instructions of an operation in one form. -/
def aluRmReg (op : AluOp) (d : Dir) (o : RmReg) : Instr :=
  match op with
  | .add => .addRmReg d o
  | .sub => .subRmReg d o
  | .cmp => .cmpRmReg d o

/-- The three ALU instructions of an operation in one form. -/
def aluImmRm (op : AluOp) (o : RmImmAlu) : Instr :=
  match op with
  | .add => .addImmRm o
  | .sub => .subImmRm o
  | .cmp => .cmpImmRm o

/-- The three ALU instructions of an operation in one form. -/
def aluImmAcc (op : AluOp) (o : AccImm) : Instr :=
  match op with
  | .add => .addImmAcc o
  | .sub => .subImmAcc o
  | .cmp => .cmpImmAcc o

/-- The mnemonic of an ALU operation (spec/30_encoding.md R68). -/
def aluName (op : AluOp) : String :=
  match op with
  | .add => "add"
  | .sub => "sub"
  | .cmp => "cmp"

/-- R160: every form of ADD, SUB and CMP: the result modulo 2^N, both flags from it, the store (none for CMP), `ip`, and the frame. -/
def Obligations.AluFamilyComputes : Prop :=
  ∀ (op : AluOp) (s : State),
    (∀ (rm : Rm Reg8) (reg : Reg8),
      Computes8 op (aluRmReg op .fromReg (.byte rm reg)) (rmLoc8 rm) (s.reg8 reg) s ∧
      Computes8 op (aluRmReg op .toReg (.byte rm reg)) (.reg reg) (s.readLoc8 (rmLoc8 rm)) s) ∧
    (∀ (rm : Rm Reg16) (reg : Reg16),
      Computes16 op (aluRmReg op .fromReg (.word rm reg)) (rmLoc16 rm) (s.reg16 reg) s ∧
      Computes16 op (aluRmReg op .toReg (.word rm reg)) (.reg reg) (s.readLoc16 (rmLoc16 rm)) s) ∧
    (∀ (sx : Bool) (rm : Rm Reg8) (v : Byte), Computes8 op (aluImmRm op (.byte sx rm v)) (rmLoc8 rm) v s) ∧
    (∀ (rm : Rm Reg16) (v : Word), Computes16 op (aluImmRm op (.word rm v)) (rmLoc16 rm) v s) ∧
    (∀ (rm : Rm Reg16) (v : Byte), Computes16 op (aluImmRm op (.wordSx rm v)) (rmLoc16 rm) (BitVec.ofInt 16 v.toInt) s) ∧
    (∀ v : Byte, Computes8 op (aluImmAcc op (.byte v)) (.reg .al) v s) ∧
    (∀ v : Word, Computes16 op (aluImmAcc op (.word v)) (.reg .ax) v s)

/-- spec/42_alu.md section 1: no ALU instruction reads a flag, each writes both, and no other instruction changes one. -/
def Obligations.FlagsBelongToTheAluFamily : Prop :=
  (∀ (i : Instr) (s : State) (f : Flags), isAlu i.kind = true → exec i (s.setFlags f) = exec i s) ∧
  (∀ (i : Instr) (s t : State), isAlu i.kind = false → exec i s = .next t → t.flags = s.flags)

/-- R181: the sixteen jumps and loops that are decoded and rendered but only advance `ip`, and the four that test ZF or SF, taken and not taken. A negative target
is Obligations.NegativeTargetEndsTheRun. -/
def Obligations.ShortJumpsMoveTheInstructionPointer : Prop :=
  ∀ (rel : Byte) (s : State),
    (∀ i ∈ untakenJumps rel, decode (encode i) = .ok (i, []) ∧ exec i s = .next { s with ip := s.ip + 2 }) ∧
    (untakenJumps rel).map render = untakenMnemonics.map (fun m => m ++ " " ++ dec rel.toInt) ∧
    (∀ p ∈ takenJumps rel s.flags,
      (p.2.1 = false → exec p.1 s = .next { s with ip := s.ip + 2 }) ∧
      (p.2.1 = true → 0 ≤ (s.ip : Int) + 2 + rel.toInt →
        exec p.1 s = .next { s with ip := ((s.ip : Int) + 2 + rel.toInt).toNat }))

/-- R213 (the spec's decision D7): a taken jump to a negative target ends the run, with nothing else changed and no line. -/
def Obligations.NegativeTargetEndsTheRun : Prop :=
  ∀ (rel : Byte) (s : State), ∀ p ∈ takenJumps rel s.flags, p.2.1 = true → (s.ip : Int) + 2 + rel.toInt < 0 →
    exec p.1 s = .next (endedIn s .branchTargetNegative
        { ip := s.ip, byte0 := p.2.2, rel := some rel.toInt }) ∧
    (s.status = .running → s.mode = .simulate → s.fetch = .decoded p.1 →
      step s = .next (endedIn s .branchTargetNegative
        { ip := s.ip, byte0 := p.2.2, rel := some rel.toInt }))

/-- spec/43_branch.md and spec/70_reset_and_hazards.md R236: whatever is not JE, JNE, JS or JNS goes on to the byte after it and raises
no error. The loops and JCXZ keep cx and do the same to everything else whatever it holds (the spec's decision D23). -/
def Obligations.OnlyFourJumpsRedirectOrFail : Prop :=
  (∀ (i : Instr) (s t : State), exec i s = .next t →
    (∀ rel, i ≠ .je rel ∧ i ≠ .jne rel ∧ i ≠ .js rel ∧ i ≠ .jns rel) →
    t.ip = s.ip + (encode i).length ∧ t.status = s.status) ∧
  (∀ (rel : Byte) (s : State) (v : Word), ∀ i ∈ [Instr.loopnz rel, .loopz rel, .loop rel, .jcxz rel],
    ∃ t, exec i s = .next t ∧ t.reg16 .cx = s.reg16 .cx ∧ exec i (s.setReg16 .cx v) = .next (t.setReg16 .cx v))

/-- spec/10_state.md section 3 and spec/20_memory.md section 4 (the spec's decision D2): the segment registers take no part in an address,
in fetch or in control flow; only MOV_SREG_RM reads one. -/
def Obligations.SegmentRegistersTakeNoPart : Prop :=
  (∀ (s : State) (f : SegFile), State.fetch { s with segs := f } = s.fetch) ∧
  (∀ (i : Instr) (s t : State) (f : SegFile), (∀ g sr rm, i ≠ .movSregRm g sr rm) → exec i s = .next t →
    ∃ t', exec i { s with segs := f } = .next t' ∧ { t' with segs := t.segs } = t)

/-! ### The step -/

/-- A running step at bytes that decode to `i` is `exec i`, with what the sequencer commits around it (R103). `exec` always answers a next
state (Obligations.PlacedInstructionRuns), so these are all its cases. -/
def Obligations.StepRunsTheDecodedInstruction : Prop :=
  ∀ (s : State) (i : Instr) (rest : List Byte), s.status = .running → decode (s.code.drop s.ip) = .ok (i, rest) →
    (s.mode = .disassemble → step s = .next { s with ip := s.ip + i.length, lines := s.lines ++ [render i] }) ∧
    (s.mode = .simulate →
      (∀ t, exec i s = .next t → t.status = .running →
        step s = .next { t with lines := t.lines ++ [render i ++ annotation (changesOf i s t)],
                                changes := t.changes ++ [changesOf i s t] }) ∧
      (∀ t, exec i s = .next t → t.status ≠ .running → step s = .next t))

/-- A well-formed instruction whose encoding stands at `ip` runs, and the step is its `exec`, whatever stands around it. -/
def Obligations.PlacedInstructionRuns : Prop :=
  ∀ (i : Instr) (before after : List Byte) (s : State), i.wf = true → s.code = before ++ encode i ++ after →
    s.ip = before.length → s.status = .running → s.mode = .simulate →
    ∃ t, exec i s = .next t ∧
      (t.status = .running → step s = .next (s.retireSimulated i t) ∧ (s.retireSimulated i t).ip = t.ip ∧
        (s.retireSimulated i t).regs = t.regs ∧ (s.retireSimulated i t).segs = t.segs ∧
        (s.retireSimulated i t).flags = t.flags ∧ (s.retireSimulated i t).mem = t.mem) ∧
      (t.status ≠ .running → step s = .next t)

/-- A running machine always takes its step: no fault and no refusal ever stops it (spec/60_exceptions.md section 4). A run that has
ended stops at the named fault (the model's choice, log entries 3 and 4). -/
def Obligations.RunningStepNeverStops : Prop :=
  (∀ s : State, s.status = .running → ∃ t, step s = .next t) ∧
  (∀ s : State, s.status = .exhausted → step s = .fault .runEnded) ∧
  (∀ (s : State) (k : ErrorKind) (c : Context), s.status = .error k c → step s = .fault (.fatal k c))

/-- R101. -/
def Obligations.ExhaustionIsClean : Prop :=
  (∀ s : State, s.status = .running → s.code.length ≤ s.ip → step s = .next { s with status := .exhausted }) ∧
  (∀ s t : State, step s = .next t → t.status = .exhausted → s.code.length ≤ s.ip) ∧
  (∀ mode : Mode, step (State.start [] mode) = .next { State.start [] mode with status := .exhausted })

/-- R35. -/
def Obligations.StatusIsTerminal : Prop :=
  (∀ (code : List Byte) (mode : Mode), (State.start code mode).status = .running) ∧
  (∀ s t : State, step s = .next t → s.status = .running) ∧
  (∀ s t : State, s.status ≠ .running → step s ≠ .next t) ∧
  (∀ s t : State, step s = .next t → t.status = .running ∨ t.status = .exhausted ∨ ∃ k c, t.status = .error k c)

/-- R211: both causes, in both modes, and the two examples. -/
def Obligations.UnsupportedEncodingEndsTheRun : Prop :=
  (∀ (s : State) (b0 : Byte) (x : List Byte), s.status = .running → s.code.drop s.ip = b0 :: x → rejectedFirst b0 →
    step s = .next (endedIn s .unsupportedEncoding
        { ip := s.ip, byte0 := b0 })) ∧
  (∀ (s : State) (b0 b1 : Byte) (x : List Byte), s.status = .running → s.code.drop s.ip = b0 :: b1 :: x →
    0x80 ≤ b0.toNat → b0.toNat ≤ 0x83 → lengthOf .immToRegMemAlu b0 b1 ≤ x.length + 2 →
    ((b1 >>> 3) &&& 7#8) ∈ [0b001#8, 0b010#8, 0b011#8, 0b100#8, 0b110#8] →
    step s = .next (endedIn s .unsupportedEncoding
        { ip := s.ip, byte0 := b0, byte1 := some b1 })) ∧
  (∀ mode : Mode, step (State.start [0x90] mode) =
    .next (endedIn (State.start [0x90] mode) .unsupportedEncoding
        { ip := 0, byte0 := 0x90 })) ∧
  (∀ mode : Mode, step (State.start [0x80, 0xC8, 0x05] mode) =
    .next (endedIn (State.start [0x80, 0xC8, 0x05] mode) .unsupportedEncoding
        { ip := 0, byte0 := 0x80, byte1 := some 0xC8 }))

/-- R212 (`needed = 2` is the spec's decision D24): both causes, the second checked before the sub-opcode (C9). -/
def Obligations.TruncationEndsTheRun : Prop :=
  (∀ (s : State) (b0 : Byte) (row : EncRow), s.status = .running → s.code.drop s.ip = [b0] → classify b0 = some row →
    row.cls.needsModRm = true →
    step s = .next (endedIn s .truncatedInstruction
        { ip := s.ip, byte0 := b0, needed := some 2, available := some 1 })) ∧
  (∀ (s : State) (b0 b1 : Byte) (x : List Byte) (row : EncRow), s.status = .running → s.code.drop s.ip = b0 :: b1 :: x →
    classify b0 = some row → x.length + 2 < lengthOf row.cls b0 b1 →
    step s = .next (endedIn s .truncatedInstruction
        { ip := s.ip, byte0 := b0, needed := some (lengthOf row.cls b0 b1), available := some (s.code.length - s.ip) })) ∧
  (∀ (s : State) (b0 : Byte) (row : EncRow), s.status = .running → s.code.drop s.ip = [b0] → classify b0 = some row →
    row.cls.needsModRm = false →
    step s = .next (endedIn s .truncatedInstruction
        { ip := s.ip, byte0 := b0, needed := some (lengthOf row.cls b0 0), available := some 1 }))

/-- spec/60_exceptions.md section 1 (the spec's decision D20): an error changes the run status and nothing else, and names its own `ip`. -/
def Obligations.ErrorsArePrecise : Prop :=
  ∀ (s t : State) (k : ErrorKind) (c : Context), step s = .next t → t.status = .error k c →
    t = endedIn s k c ∧ c.ip = s.ip

/-- spec/60_exceptions.md section 1 (the spec's decision D21). -/
def Obligations.InvalidOperandCombinationIsNeverRaised : Prop :=
  ∀ (s t : State) (c : Context), step s = .next t → t.status ≠ .error .invalidOperandCombination c

/-- R106. -/
def Obligations.DisassembleStepFallsThrough : Prop :=
  ∀ (s : State) (i : Instr), s.status = .running → s.mode = .disassemble → s.fetch = .decoded i →
    step s = .next { s with ip := s.ip + (encode i).length, lines := s.lines ++ [render i] }

/-- spec/10_state.md section 7: in `Disassemble` mode the simulator's state is neither read nor written. -/
def Obligations.DisassembleIgnoresTheSimulator : Prop :=
  ∀ s s' t : State, s.mode = .disassemble → s'.mode = .disassemble → s.code = s'.code → s.ip = s'.ip →
    s.status = s'.status → s.lines = s'.lines → step s = .next t →
    (∃ t', step s' = .next t' ∧ t'.ip = t.ip ∧ t'.status = t.status ∧ t'.lines = t.lines ∧ t'.code = t.code) ∧
    t.regs = s.regs ∧ t.segs = s.segs ∧ t.flags = s.flags ∧ t.mem = s.mem ∧ t.changes = s.changes

/-- spec/20_memory.md section 1 and spec/10_state.md section 6: no step writes `CODE` or `MODE`. -/
def Obligations.InputsNeverChange : Prop :=
  ∀ s t : State, step s = .next t → t.code = s.code ∧ t.mode = s.mode

/-- spec/20_memory.md section 6 (the spec's decision D26): what Memory holds never changes what is fetched. -/
def Obligations.StoresNeverReachFetch : Prop :=
  (∀ (s : State) (m : Memory), State.fetch { s with mem := m } = s.fetch) ∧
  (∀ s t : State, step s = .next t → ∀ m : Memory, State.fetch { t with mem := m } = State.fetch { s with ip := t.ip })

/-- spec/00_scope.md section 4 and spec/40_sequencer_and_renderer.md section 5: one line per completed instruction, which begins with its
disassembly text; a step that ends the run emits nothing. -/
def Obligations.OneLinePerCompletedStep : Prop :=
  ∀ s t : State, step s = .next t →
    (t.status = .running → ∃ i suffix, s.fetch = .decoded i ∧ t.lines = s.lines ++ [render i ++ suffix] ∧
      (s.mode = .disassemble → suffix = "" ∧ t.changes = s.changes) ∧
      (s.mode = .simulate → ∃ cs, suffix = annotation cs ∧ t.changes = s.changes ++ [cs])) ∧
    (t.status ≠ .running → t.lines = s.lines ∧ t.changes = s.changes)

/-- spec/40_sequencer_and_renderer.md section 4 (the spec's decisions D17, D19): the records of a completed step are exactly the register,
segment register, `ip` and flags changes between the states before and after, in that order. -/
def Obligations.ChangeRecordsDescribeTheStep : Prop :=
  ∀ s t : State, s.mode = .simulate → step s = .next t → t.status = .running →
    ∃ cs, t.changes = s.changes ++ [cs] ∧ cs.length ≤ 3 ∧ cs.Pairwise (fun c d => changeRank c < changeRank d) ∧
      (∀ r o n, Change.reg r o n ∈ cs ↔ s.reg16 r ≠ t.reg16 r ∧ o = s.reg16 r ∧ n = t.reg16 r) ∧
      (∀ q o n, Change.sreg q o n ∈ cs ↔ s.sreg q ≠ t.sreg q ∧ o = s.sreg q ∧ n = t.sreg q) ∧
      (∀ o n, Change.ip o n ∈ cs ↔ s.ip ≠ t.ip ∧ o = s.ip ∧ n = t.ip) ∧
      (∀ o n, Change.flags o n ∈ cs ↔ s.flags ≠ t.flags ∧ o = s.flags ∧ n = t.flags)

/-- R203. -/
def Obligations.JumpPastTheEndExhausts : Prop :=
  ∀ (rel : Byte) (s : State), ∀ p ∈ takenJumps rel s.flags, p.2.1 = true → s.status = .running → s.mode = .simulate →
    s.fetch = .decoded p.1 → (s.code.length : Int) ≤ (s.ip : Int) + 2 + rel.toInt →
    ∃ t cs, step s = .next t ∧ t.status = .running ∧ (t.ip : Int) = (s.ip : Int) + 2 + rel.toInt ∧
      t.lines = s.lines ++ [render p.1 ++ annotation cs] ∧ t.changes = s.changes ++ [cs] ∧ Change.ip s.ip t.ip ∈ cs ∧
      step t = .next { t with status := .exhausted }

/-- spec/70_reset_and_hazards.md R236 and Scenario E (C1): a taken jump to itself, by any of the four jumps that are ever taken, runs for
ever without error: `FUEL` steps are `FUEL` lines, whatever `FUEL` is. Each line has no annotation (the spec's decision D27), and each
step keeps an empty list of records (the model's choice, log entry 7). -/
def Obligations.SelfJumpNeverEnds : Prop :=
  (∀ (s : State) (x : List Byte) (k : Nat), ∀ p ∈ takenJumps 0xFE s.flags, p.2.1 = true → s.status = .running → s.mode = .simulate →
    s.code.drop s.ip = p.2.2 :: 0xFE#8 :: x →
    runFuel k s = { s with
      lines := s.lines ++ List.replicate k (render p.1), changes := s.changes ++ List.replicate k [] }) ∧
  (∀ f : Flags, (takenJumps 0xFE f).map (fun p => render p.1) = ["je -2", "jne -2", "js -2", "jns -2"])

/-- R100 against R103: the Fetch Engine's phases, at most four transitions from `Fetching`, make exactly one step. -/
def Obligations.FetchEnginePhasesMakeOneStep : Prop :=
  ∀ s : State, s.status = .running → runPhases s 4 .fetching = some (step s)

/-! ### Reset, outputs, invariant -/

/-- spec/10_state.md section 7 (the segment registers: the spec's decision D2): what reset leaves, for every image and mode. -/
def Obligations.ResetValues : Prop :=
  ∀ (code : List Byte) (mode : Mode),
    (∀ r : Reg16, (State.start code mode).reg16 r = 0) ∧ (∀ r : Reg8, (State.start code mode).reg8 r = 0) ∧
    (∀ q : SReg, (State.start code mode).sreg q = 0) ∧
    (State.start code mode).flags.zf = false ∧ (State.start code mode).flags.sf = false ∧
    (State.start code mode).ip = 0 ∧ (State.start code mode).status = .running ∧
    (State.start code mode).lines = [] ∧ (State.start code mode).changes = [] ∧
    (∀ a b, code[a]? = some b → (State.start code mode).readByte a = b) ∧
    (∀ a, code.length ≤ a → (State.start code mode).readByte a = 0)

/-- spec/70_reset_and_hazards.md section 1 (the bound is the spec's decision D22): loading an image starts a run from reset, and an image over
1,048,576 bytes is refused. State.reset is the empty image in `Simulate` mode, the model's own choice (log entry 1). -/
def Obligations.LoadingStartsARunOrRefuses : Prop :=
  (∀ (code : List Byte) (mode : Mode), code.length ≤ 1048576 → State.load code mode = .next (State.start code mode)) ∧
  (∀ (code : List Byte) (mode : Mode), 1048576 < code.length → State.load code mode = .refused .imageTooLarge) ∧
  State.reset = State.start [] .simulate

/-- R127. -/
def Obligations.FinalShowsTheEndState : Prop :=
  (∀ s : State, s.mode = .simulate → s.status ≠ .running →
    ∃ bytes, s.final = some (.simulate s.regs s.segs s.flags s.ip bytes s.status) ∧ bytes.length = 1048576 ∧
      ∀ a, a < 1048576 → bytes[a]? = some (s.readByte a)) ∧
  (∀ s t : State, step s = .next t → t.status ≠ .running → t = { s with status := t.status })

/-- spec/40_sequencer_and_renderer.md section 2 and R126: the lines of the spec's examples; the size keyword of every immediate to memory
form, and none in any other two-operand form: an immediate with a register destination, register/memory and register in both directions,
the accumulator with an immediate or a direct address, the segment moves. The texts rest on the spec's decisions D10 (a direct address is
unsigned), D12 and D13 (brackets and keyword), D14 (signed decimals) and D16 (hexadecimal in the annotation). -/
def Obligations.RenderedText : Prop :=
  render (.movRmReg .fromReg (.word (.reg .ax) .bx)) = "mov ax, bx" ∧
  render (.addImmRm (.wordSx (.reg .ax) 0xFB)) = "add ax, -5" ∧
  render (.movRmReg .toReg (.word (.mem (.disp8 .bxDi 0xDB)) .ax)) = "mov ax, [bx + di - 37]" ∧
  render (.movAccMem .byte 0xFFFF) = "mov [65535], al" ∧
  render (.je 0xFE) = "je -2" ∧
  -- an immediate to memory: the keyword of the width
  (∀ (m : MemRef) (g : BitVec 3) (v : Byte),
    render (.movImmRm g (.byte (.mem m) v)) = "mov " ++ (memText m ++ ", byte " ++ dec v.toInt)) ∧
  (∀ (m : MemRef) (g : BitVec 3) (v : Word),
    render (.movImmRm g (.word (.mem m) v)) = "mov " ++ (memText m ++ ", word " ++ dec v.toInt)) ∧
  (∀ (op : AluOp) (m : MemRef) (sx : Bool) (v : Byte),
    render (aluImmRm op (.byte sx (.mem m) v)) = aluName op ++ " " ++ (memText m ++ ", byte " ++ dec v.toInt)) ∧
  (∀ (op : AluOp) (m : MemRef) (v : Word),
    render (aluImmRm op (.word (.mem m) v)) = aluName op ++ " " ++ (memText m ++ ", word " ++ dec v.toInt)) ∧
  (∀ (op : AluOp) (m : MemRef) (v : Byte),
    render (aluImmRm op (.wordSx (.mem m) v)) = aluName op ++ " " ++ (memText m ++ ", word " ++ dec v.toInt)) ∧
  -- the same kinds with a register destination: no keyword
  (∀ (r : Reg8) (g : BitVec 3) (v : Byte),
    render (.movImmRm g (.byte (.reg r) v)) = "mov " ++ (reg8Name r ++ ", " ++ dec v.toInt)) ∧
  (∀ (r : Reg16) (g : BitVec 3) (v : Word),
    render (.movImmRm g (.word (.reg r) v)) = "mov " ++ (reg16Name r ++ ", " ++ dec v.toInt)) ∧
  (∀ (op : AluOp) (r : Reg8) (sx : Bool) (v : Byte),
    render (aluImmRm op (.byte sx (.reg r) v)) = aluName op ++ " " ++ (reg8Name r ++ ", " ++ dec v.toInt)) ∧
  (∀ (op : AluOp) (r : Reg16) (v : Word),
    render (aluImmRm op (.word (.reg r) v)) = aluName op ++ " " ++ (reg16Name r ++ ", " ++ dec v.toInt)) ∧
  (∀ (op : AluOp) (r : Reg16) (v : Byte),
    render (aluImmRm op (.wordSx (.reg r) v)) = aluName op ++ " " ++ (reg16Name r ++ ", " ++ dec v.toInt)) ∧
  -- an immediate to a register or to the accumulator by its own kind: no keyword
  (∀ (r : Reg8) (v : Byte), render (.movImmReg (.byte r v)) = "mov " ++ (reg8Name r ++ ", " ++ dec v.toInt)) ∧
  (∀ (r : Reg16) (v : Word), render (.movImmReg (.word r v)) = "mov " ++ (reg16Name r ++ ", " ++ dec v.toInt)) ∧
  (∀ (op : AluOp) (v : Byte), render (aluImmAcc op (.byte v)) = aluName op ++ " " ++ ("al, " ++ dec v.toInt)) ∧
  (∀ (op : AluOp) (v : Word), render (aluImmAcc op (.word v)) = aluName op ++ " " ++ ("ax, " ++ dec v.toInt)) ∧
  -- register/memory and register, in both directions, the r/m operand a register or memory: no keyword
  (∀ (rm : Rm Reg8) (r : Reg8),
    render (.movRmReg .fromReg (.byte rm r)) = "mov " ++ (loc8Text (rmLoc8 rm) ++ ", " ++ reg8Name r) ∧
    render (.movRmReg .toReg (.byte rm r)) = "mov " ++ (reg8Name r ++ ", " ++ loc8Text (rmLoc8 rm))) ∧
  (∀ (rm : Rm Reg16) (r : Reg16),
    render (.movRmReg .fromReg (.word rm r)) = "mov " ++ (loc16Text (rmLoc16 rm) ++ ", " ++ reg16Name r) ∧
    render (.movRmReg .toReg (.word rm r)) = "mov " ++ (reg16Name r ++ ", " ++ loc16Text (rmLoc16 rm))) ∧
  (∀ (op : AluOp) (rm : Rm Reg8) (r : Reg8),
    render (aluRmReg op .fromReg (.byte rm r)) = aluName op ++ " " ++ (loc8Text (rmLoc8 rm) ++ ", " ++ reg8Name r) ∧
    render (aluRmReg op .toReg (.byte rm r)) = aluName op ++ " " ++ (reg8Name r ++ ", " ++ loc8Text (rmLoc8 rm))) ∧
  (∀ (op : AluOp) (rm : Rm Reg16) (r : Reg16),
    render (aluRmReg op .fromReg (.word rm r)) = aluName op ++ " " ++ (loc16Text (rmLoc16 rm) ++ ", " ++ reg16Name r) ∧
    render (aluRmReg op .toReg (.word rm r)) = aluName op ++ " " ++ (reg16Name r ++ ", " ++ loc16Text (rmLoc16 rm))) ∧
  -- the accumulator and a direct address, in both directions: no keyword
  (∀ a : Word, render (.movAccMem .byte a) = "mov " ++ (memText (.direct a) ++ ", al") ∧
    render (.movAccMem .word a) = "mov " ++ (memText (.direct a) ++ ", ax") ∧
    render (.movMemAcc .byte a) = "mov " ++ ("al, " ++ memText (.direct a)) ∧
    render (.movMemAcc .word a) = "mov " ++ ("ax, " ++ memText (.direct a))) ∧
  -- the segment moves, the r/m operand a register or memory: no keyword
  (∀ (g : BitVec 1) (q : SReg) (rm : Rm Reg16),
    render (.movSregRm g q rm) = "mov " ++ (loc16Text (rmLoc16 rm) ++ ", " ++ sregName q) ∧
    render (.movRmSreg g q rm) = "mov " ++ (sregName q ++ ", " ++ loc16Text (rmLoc16 rm))) ∧
  (∃ t, step (State.start [0xB8, 0x01, 0x00] .simulate) = .next t ∧ t.lines = ["mov ax, 1 ; ax:0x0->0x1 ip:0x0->0x3"])

/-- The invariant holds at reset, and at the start of every run whose image is accepted. -/
def Obligations.InvariantHoldsAtReset : Prop :=
  State.reset.Inv ∧ ∀ (code : List Byte) (mode : Mode) (s : State), State.load code mode = .next s → s.Inv

/-- Every step keeps the invariant, from any state that meets it. -/
def Obligations.StepKeepsTheInvariant : Prop :=
  ∀ s t : State, s.Inv → step s = .next t → t.Inv
end

