-- ==== Sys2Proof/Laws/Decode.lean ====
section
/-! SUPPORT. The small laws of the decoder and the encoder (spec/30_encoding.md): codes and fields are inverse to each other, and the
length of an encoding. -/

namespace Sys2Proof

/-! ### Words and bytes -/

/-- R49: a word's value is `lo + 256*hi`. -/
theorem toNat_wordOf (lo hi : Byte) : (wordOf lo hi).toNat = lo.toNat + 256 * hi.toNat := by
  have h := lo.isLt
  simp only [wordOf, BitVec.toNat_append]
  rw [← Nat.shiftLeft_add_eq_or_of_lt (by omega), Nat.shiftLeft_eq]
  omega

theorem toNat_loByte (v : Word) : (loByte v).toNat = v.toNat % 256 := by simp [loByte]

theorem toNat_hiByte (v : Word) : (hiByte v).toNat = v.toNat / 256 := by
  have := v.isLt
  simp [hiByte, Nat.shiftRight_eq_div_pow]; omega

@[simp] theorem wordOf_bytes (v : Word) : wordOf (loByte v) (hiByte v) = v := by
  apply BitVec.eq_of_toNat_eq
  rw [toNat_wordOf, toNat_loByte, toNat_hiByte]; omega

@[simp] theorem loByte_wordOf (lo hi : Byte) : loByte (wordOf lo hi) = lo := by
  apply BitVec.eq_of_toNat_eq
  have := lo.isLt
  rw [toNat_loByte, toNat_wordOf]; omega

@[simp] theorem hiByte_wordOf (lo hi : Byte) : hiByte (wordOf lo hi) = hi := by
  apply BitVec.eq_of_toNat_eq
  have := lo.isLt
  rw [toNat_hiByte, toNat_wordOf]; omega

/-! ### Codes -/

@[simp] theorem reg16Of_code (r : Reg16) : reg16Of r.code = r := by cases r <;> rfl
@[simp] theorem reg8Of_code (r : Reg8) : reg8Of r.code = r := by cases r <;> rfl
@[simp] theorem sregOf_code (q : SReg) : sregOf q.code = q := by cases q <;> rfl
@[simp] theorem baseOf_code (b : Base) : baseOf b.code = b := by cases b <;> rfl
@[simp] theorem code_reg16Of (c : BitVec 3) : (reg16Of c).code = c := by revert c; decide
@[simp] theorem code_reg8Of (c : BitVec 3) : (reg8Of c).code = c := by revert c; decide
@[simp] theorem code_sregOf (c : BitVec 2) : (sregOf c).code = c := by revert c; decide
@[simp] theorem code_baseOf (c : BitVec 3) : (baseOf c).code = c := by revert c; decide

/-- R73: the only base whose code is the direct-address code. -/
theorem code_eq_direct (b : Base) : b.code = 0b110#3 ↔ b = .bp := by cases b <;> decide

/-! ### Fields of the mod-reg-rm byte -/

@[simp] theorem modField_append (m : BitVec 2) (r x : BitVec 3) : modField (m ++ r ++ x) = m := by revert m r x; decide
@[simp] theorem regField_append (m : BitVec 2) (r x : BitVec 3) : regField (m ++ r ++ x) = r := by revert m r x; decide
@[simp] theorem rmField_append (m : BitVec 2) (r x : BitVec 3) : rmField (m ++ r ++ x) = x := by revert m r x; decide

/-- R64: the three fields make up the byte. -/
theorem append_fields (b : Byte) : modField b ++ regField b ++ rmField b = b := by revert b; decide

/-- R64, R84: the ignored bit and the segment code make up the middle field. -/
theorem append_sr (b : Byte) : (srIgnored b ++ srField b : BitVec 3) = regField b := by revert b; decide

variable {ρ : Type} (code : ρ → BitVec 3) (mid : BitVec 3) (rm : Rm ρ)

@[simp] theorem regField_modRmByte : regField (rm.modRmByte code mid) = mid := by
  rcases rm with r | _ | _ | _ | _ <;> exact regField_append _ _ _

/-- R73: the Length Resolver's displacement length of an encoded r/m operand. -/
theorem dispLen_modRmByte (h : rm.wf = true) :
    dispLen (modField (rm.modRmByte code mid)) (rmField (rm.modRmByte code mid)) = rm.dispLen := by
  rcases rm with r | a | b | ⟨b, d⟩ | ⟨b, d⟩
  · simp only [Rm.modRmByte, modField_append, rmField_append]; rfl
  · simp only [Rm.modRmByte, modField_append, rmField_append]; rfl
  · simp only [Rm.modRmByte, modField_append, rmField_append]
    cases b <;> first | rfl | simp [Rm.wf, MemRef.wf] at h
  · simp only [Rm.modRmByte, modField_append, rmField_append]; rfl
  · simp only [Rm.modRmByte, modField_append, rmField_append]; rfl

@[simp] theorem length_wordBytes (v : Word) : (wordBytes v).length = 2 := rfl

@[simp] theorem length_dispBytes : rm.dispBytes.length = rm.dispLen := by
  rcases rm with r | _ | _ | _ | _ <;> rfl

@[simp] theorem length_rmEncode : (rm.encode code mid).length = 1 + rm.dispLen := by
  simp [Rm.encode, Nat.add_comm]

theorem dispLen_le_two : rm.dispLen ≤ 2 := by
  rcases rm with r | _ | _ | _ | _ <;> simp [Rm.dispLen]

/-! ### Operand assembly reads back what the encoder wrote -/

theorem byteAt_zero (b : Byte) (tl : List Byte) : byteAt (b :: tl) 0 = b := rfl

theorem byteAt_succ (b : Byte) (tl : List Byte) (j : Nat) : byteAt (b :: tl) (j + 1) = byteAt tl j := rfl

/-- R77, R78, R83: the r/m operand. -/
theorem rmOperand_encode {code : ρ → BitVec 3} {reg : BitVec 3 → ρ} (hd : ∀ r, reg (code r) = r) (hw : rm.wf = true) (b0 : Byte)
    (tl : List Byte) : rmOperand reg (b0 :: (rm.encode code mid ++ tl)) = rm := by
  rcases rm with r | a | b | ⟨b, d⟩ | ⟨b, d⟩
  all_goals simp only [rmOperand, Rm.encode, Rm.modRmByte, Rm.dispBytes, wordBytes, List.cons_append, byteAt, List.getD_cons_succ,
    List.getD_cons_zero, modField_append, rmField_append, baseOf_code, hd, List.nil_append, wordOf_bytes]
  · rfl
  · rfl
  · have : ¬ b.code = 0b110#3 := by rw [code_eq_direct]; rintro rfl; simp [Rm.wf, MemRef.wf] at hw
    simp [this]
  · rfl
  · rfl

theorem regField_encode (b0 : Byte) (tl : List Byte) : regField (byteAt (b0 :: (rm.encode code mid ++ tl)) 1) = mid :=
  regField_modRmByte code mid rm

/-- R79: the immediate stands right after the displacement. -/
theorem immOffset_encode (hw : rm.wf = true) (b0 : Byte) (tl : List Byte) :
    immOffset (b0 :: (rm.encode code mid ++ tl)) = 2 + rm.dispLen := by
  have := dispLen_modRmByte code mid rm hw
  simpa [immOffset, Rm.encode, byteAt] using this

theorem byteAt_imm (b0 : Byte) (tl : List Byte) (k : Nat) :
    byteAt (b0 :: (rm.encode code mid ++ tl)) (2 + rm.dispLen + k) = byteAt tl k := by
  rcases rm with r | a | b | ⟨b, d⟩ | ⟨b, d⟩ <;>
    simp [byteAt, Rm.encode, Rm.dispBytes, Rm.dispLen, wordBytes, Nat.add_comm _ k, List.getD]

/-- R64: the width, direction and sign-extend bits of a byte made of a six-bit opcode and two bits. -/
theorem bits_append (op : BitVec 6) (x w : BitVec 1) :
    (op ++ x ++ w).getLsbD 0 = w.getLsbD 0 ∧ (op ++ x ++ w).getLsbD 1 = x.getLsbD 0 := by revert op x w; decide

/-- R64: the width bit of a byte made of a seven-bit opcode and a bit. -/
theorem bit_append (op : BitVec 7) (w : BitVec 1) : (op ++ w).getLsbD 0 = w.getLsbD 0 := by revert op w; decide

theorem rmRegOperands_encode (op : BitVec 6) (d : Dir) (o : RmReg) (hw : o.wf = true) :
    rmRegOperands (o.encode op d) = o ∧ dirOf ((byteAt (o.encode op d) 0).getLsbD 1) = d := by
  have hdir : ∀ w : BitVec 1, dirOf ((op ++ d.bit ++ w).getLsbD 1) = d := fun w => by rw [(bits_append op d.bit w).2]; cases d <;> rfl
  rcases o with ⟨rm, r⟩ | ⟨rm, r⟩
  · have h1 := rmOperand_encode r.code rm reg8Of_code hw (op ++ d.bit ++ 0#1) []
    have h2 := regField_encode Reg8.code r.code rm (op ++ d.bit ++ 0#1) []
    rw [List.append_nil] at h1 h2
    refine ⟨?_, by rw [RmReg.encode, byteAt_zero, hdir]⟩
    rw [RmReg.encode, rmRegOperands, byteAt_zero, (bits_append op d.bit 0#1).1, h1, h2]
    simp [widthOf]
  · have h1 := rmOperand_encode r.code rm reg16Of_code hw (op ++ d.bit ++ 1#1) []
    have h2 := regField_encode Reg16.code r.code rm (op ++ d.bit ++ 1#1) []
    rw [List.append_nil] at h1 h2
    refine ⟨?_, by rw [RmReg.encode, byteAt_zero, hdir]⟩
    rw [RmReg.encode, rmRegOperands, byteAt_zero, (bits_append op d.bit 1#1).1, h1, h2]
    simp [widthOf]

theorem rmImmOperands_encode (g : BitVec 3) (o : RmImm) (hw : o.wf = true) :
    rmImmOperands (o.encode g) = o ∧ regField (byteAt (o.encode g) 1) = g := by
  rcases o with ⟨rm, v⟩ | ⟨rm, v⟩
  · refine ⟨?_, regField_encode Reg8.code g rm _ _⟩
    have h := byteAt_imm Reg8.code g rm (0b1100011#7 ++ 0#1) [v] 0
    rw [RmImm.encode, rmImmOperands, immOffset_encode _ _ _ hw, rmOperand_encode _ _ reg8Of_code hw, byteAt_zero, bit_append, ← Nat.add_zero (2 + _), h]
    rfl
  · refine ⟨?_, regField_encode Reg16.code g rm _ _⟩
    have h0 := byteAt_imm Reg16.code g rm (0b1100011#7 ++ 1#1) (wordBytes v) 0
    have h1 := byteAt_imm Reg16.code g rm (0b1100011#7 ++ 1#1) (wordBytes v) 1
    rw [Nat.add_zero (2 + _)] at h0
    rw [RmImm.encode, rmImmOperands, immOffset_encode _ _ _ hw, rmOperand_encode _ _ reg16Of_code hw, byteAt_zero, bit_append, wordAt, h0, h1]
    simp [widthOf, wordBytes, byteAt]

theorem rmImmAluOperands_encode (op3 : BitVec 3) (o : RmImmAlu) (hw : o.wf = true) :
    rmImmAluOperands (o.encode op3) = o ∧ regField (byteAt (o.encode op3) 1) = op3 := by
  rcases o with ⟨sx, rm, v⟩ | ⟨rm, v⟩ | ⟨rm, v⟩
  · refine ⟨?_, regField_encode Reg8.code op3 rm _ _⟩
    have h := byteAt_imm Reg8.code op3 rm (0b100000#6 ++ BitVec.ofBool sx ++ 0#1) [v] 0
    have hb := bits_append 0b100000#6 (BitVec.ofBool sx) 0#1
    rw [RmImmAlu.encode, rmImmAluOperands, immOffset_encode _ _ _ hw, rmOperand_encode _ _ reg8Of_code hw, byteAt_zero, hb.1, hb.2,
      ← Nat.add_zero (2 + _), h]
    cases sx <;> rfl
  · refine ⟨?_, regField_encode Reg16.code op3 rm _ _⟩
    have h0 := byteAt_imm Reg16.code op3 rm (0b100000#6 ++ 0#1 ++ 1#1) (wordBytes v) 0
    have h1 := byteAt_imm Reg16.code op3 rm (0b100000#6 ++ 0#1 ++ 1#1) (wordBytes v) 1
    have hb := bits_append 0b100000#6 0#1 1#1
    rw [Nat.add_zero (2 + _)] at h0
    rw [RmImmAlu.encode, rmImmAluOperands, immOffset_encode _ _ _ hw, rmOperand_encode _ _ reg16Of_code hw, byteAt_zero, hb.1, hb.2,
      wordAt, h0, h1]
    simp [widthOf, wordBytes, byteAt]
  · refine ⟨?_, regField_encode Reg16.code op3 rm _ _⟩
    have h := byteAt_imm Reg16.code op3 rm (0b100000#6 ++ 1#1 ++ 1#1) [v] 0
    have hb := bits_append 0b100000#6 1#1 1#1
    rw [RmImmAlu.encode, rmImmAluOperands, immOffset_encode _ _ _ hw, rmOperand_encode _ _ reg16Of_code hw, byteAt_zero, hb.1, hb.2,
      ← Nat.add_zero (2 + _), h]
    rfl

theorem accImmOperands_encode (op : BitVec 7) (o : AccImm) : accImmOperands (o.encode op) = o := by
  rcases o with v | v
  · rw [AccImm.encode, accImmOperands, byteAt_zero, bit_append]; rfl
  · rw [AccImm.encode, accImmOperands, byteAt_zero, bit_append]
    simp [widthOf, wordAt, wordBytes, byteAt]

/-- R65: the width bit and the register of MOV_IMM_REG. -/
theorem immReg_append (w : BitVec 1) (r : BitVec 3) :
    (0b1011#4 ++ w ++ r : Byte).getLsbD 3 = w.getLsbD 0 ∧ rmField (0b1011#4 ++ w ++ r) = r := by revert w r; decide

theorem regImmOperands_encode (o : RegImm) : regImmOperands o.encode = o := by
  rcases o with ⟨r, v⟩ | ⟨r, v⟩
  · have hb := immReg_append 0#1 r.code
    rw [RegImm.encode, regImmOperands, byteAt_zero, hb.1, hb.2, reg8Of_code]; rfl
  · have hb := immReg_append 1#1 r.code
    rw [RegImm.encode, regImmOperands, byteAt_zero, hb.1, hb.2, reg16Of_code]
    simp [widthOf, wordAt, wordBytes, byteAt]

/-- R84: the ignored bit and the segment code of an encoded segment move. -/
theorem sr_encode (g : BitVec 1) (sr : SReg) (rm : Rm Reg16) (b0 : Byte) :
    srIgnored (byteAt (b0 :: rm.encode Reg16.code (g ++ sr.code)) 1) = g ∧
      sregOf (srField (byteAt (b0 :: rm.encode Reg16.code (g ++ sr.code)) 1)) = sr := by
  have fields : ∀ b : Byte, srIgnored b = (regField b).extractLsb' 2 1 ∧ srField b = (regField b).extractLsb' 0 2 := by decide
  have parts : ∀ (g : BitVec 1) (c : BitVec 2), (g ++ c : BitVec 3).extractLsb' 2 1 = g ∧ (g ++ c : BitVec 3).extractLsb' 0 2 = c := by
    decide
  have h := regField_encode Reg16.code (g ++ sr.code) rm b0 []
  rw [List.append_nil] at h
  rw [(fields _).1, (fields _).2, h, (parts g sr.code).1, (parts g sr.code).2]
  exact ⟨rfl, sregOf_code sr⟩

/-- R69, R103, R89: how the parts of the decoder make up a successful decode. -/
theorem decode_eq_ok {b0 : Byte} {rest : List Byte} {row : EncRow} {n : Nat} {i : Instr} (h1 : classify b0 = some row)
    (h2 : resolveLength row b0 rest = .ok n) (h3 : resolveInstr row ((b0 :: rest).take n) = .ok i) :
    decode (b0 :: rest) = .ok (i, (b0 :: rest).drop n) := by
  simp [decode, h1, h2, h3]

/-- What a successful decode went through. -/
theorem decode_ok_cases {bs rest : List Byte} {i : Instr} (h : decode bs = .ok (i, rest)) :
    ∃ b0 tl row n, bs = b0 :: tl ∧ classify b0 = some row ∧ resolveLength row b0 tl = .ok n ∧
      resolveInstr row ((b0 :: tl).take n) = .ok i ∧ rest = (b0 :: tl).drop n := by
  cases bs with
  | nil => simp [decode] at h
  | cons b0 tl =>
    simp only [decode] at h
    split at h
    · cases h
    · next row hrow =>
      split at h
      · cases h
      · next n hn =>
        split at h
        · cases h
        · next j hj => cases h; exact ⟨b0, tl, row, n, rfl, hrow, hn, hj, rfl⟩

/-- R104: when the Length Resolver finds enough bytes. -/
theorem resolveLength_ok {row : EncRow} {b0 : Byte} {rest : List Byte} {n : Nat} :
    resolveLength row b0 rest = .ok n ↔
      (row.cls.needsModRm = true → rest ≠ []) ∧ n = 1 + additionalLength row.cls b0 (byteAt rest 0) ∧ n ≤ rest.length + 1 := by
  unfold resolveLength
  by_cases hm : row.cls.needsModRm = true <;> cases rest <;> simp [hm] <;> (try split) <;> simp_all <;> omega

/-- A decode of an encoding, from its first two bytes: the row, the length and the operands. -/
theorem decode_encode_of {i : Instr} {b0 b1 : Byte} {tl rest : List Byte} (row : EncRow) (he : encode i = b0 :: b1 :: tl)
    (hc : classify b0 = some row) (hn : additionalLength row.cls b0 b1 = tl.length + 1)
    (hr : resolveInstr row (encode i) = .ok i) : decode (encode i ++ rest) = .ok (i, rest) := by
  have h2 : resolveLength row b0 (b1 :: (tl ++ rest)) = .ok (tl.length + 2) := by
    rw [resolveLength_ok]
    refine ⟨by simp, ?_, ?_⟩
    · show _ = 1 + additionalLength row.cls b0 b1
      omega
    · simp
  rw [he] at hr ⊢
  have := decode_eq_ok (rest := b1 :: (tl ++ rest)) (i := i) hc h2 (by
    have : (b0 :: b1 :: (tl ++ rest)).take (tl.length + 2) = b0 :: b1 :: tl := by simp
    rw [this]; exact hr)
  simpa using this

/-- R64, R77, R78: what is read back from a mod-reg-rm byte and enough displacement bytes encodes to those bytes; the bytes after the
displacement are not looked at. -/
theorem rmOperand_of_bytes {ρ : Type} {code : ρ → BitVec 3} {reg : BitVec 3 → ρ} (hd : ∀ c, code (reg c) = c) (b0 b1 : Byte)
    (x : List Byte) (h : dispLen (modField b1) (rmField b1) ≤ x.length) :
    ∃ rm, (∀ k, rmOperand reg (b0 :: b1 :: (x.take (dispLen (modField b1) (rmField b1) + k))) = rm) ∧ rm.wf = true ∧
      rm.dispLen = dispLen (modField b1) (rmField b1) ∧
      rm.encode code (regField b1) = b1 :: x.take (dispLen (modField b1) (rmField b1)) := by
  have hb := append_fields b1
  have hm : ∀ m : BitVec 2, m = 0 ∨ m = 1 ∨ m = 2 ∨ m = 3 := by decide
  have hbase := code_baseOf (rmField b1)
  rcases hm (modField b1) with e | e | e | e
  · by_cases h6 : rmField b1 = 0b110#3
    · simp only [e, h6, dispLen] at h hb ⊢
      match x, h with
      | y :: z :: x, _ =>
        refine ⟨_, fun k => by simp [rmOperand, e, h6, byteAt, Nat.add_comm 2 k]; rfl, rfl, rfl, ?_⟩
        simp [Rm.encode, Rm.modRmByte, Rm.dispBytes, wordBytes]; exact hb
    · simp only [e, h6, dispLen] at h hb ⊢
      refine ⟨.mem (.plain (baseOf (rmField b1))), fun k => by simp [rmOperand, e, h6, byteAt], ?_, by simp [Rm.dispLen], ?_⟩
      · have := code_eq_direct (baseOf (rmField b1)); rw [hbase] at this; simp [Rm.wf, MemRef.wf]; tauto
      · simp [Rm.encode, Rm.modRmByte, Rm.dispBytes]; exact hb
  · simp only [e, dispLen] at h hb ⊢
    match x, h with
    | y :: x, _ =>
        refine ⟨_, fun k => by simp [rmOperand, e, byteAt, Nat.add_comm 1 k]; rfl, rfl, rfl, ?_⟩
        simp [Rm.encode, Rm.modRmByte, Rm.dispBytes]; exact hb
  · simp only [e, dispLen] at h hb ⊢
    match x, h with
    | y :: z :: x, _ =>
        refine ⟨_, fun k => by simp [rmOperand, e, byteAt, Nat.add_comm 2 k]; rfl, rfl, rfl, ?_⟩
        simp [Rm.encode, Rm.modRmByte, Rm.dispBytes, wordBytes]; exact hb
  · simp only [e, dispLen] at h hb ⊢
    refine ⟨_, fun k => by simp [rmOperand, e, byteAt]; rfl, rfl, rfl, ?_⟩
    simp [Rm.encode, Rm.modRmByte, Rm.dispBytes, hd]; exact hb

/-- R69: what the Classifier answers is a row of the table that matches. -/
theorem classify_mem {b : Byte} {row : EncRow} (h : classify b = some row) : row ∈ encodingTable ∧ row.hits b = true := by
  unfold classify at h
  exact ⟨List.mem_of_find?_eq_some h, by simpa using List.find?_some h⟩

end Sys2Proof
end

