-- ==== Sys2Proof/Laws/State.lean ====
section
/-! SUPPORT. One lemma per field per named update of the state, each true by `rfl`, so that no proof unfolds an update. -/

namespace Sys2Proof.Machine

variable (s : State)

@[simp] theorem setReg16_code (r : Reg16) (v : Word) : (s.setReg16 r v).code = s.code := rfl
@[simp] theorem setReg16_mode (r : Reg16) (v : Word) : (s.setReg16 r v).mode = s.mode := rfl
@[simp] theorem setReg16_regs (r : Reg16) (v : Word) : (s.setReg16 r v).regs = s.regs.set r v := rfl
@[simp] theorem setReg16_segs (r : Reg16) (v : Word) : (s.setReg16 r v).segs = s.segs := rfl
@[simp] theorem setReg16_flags (r : Reg16) (v : Word) : (s.setReg16 r v).flags = s.flags := rfl
@[simp] theorem setReg16_ip (r : Reg16) (v : Word) : (s.setReg16 r v).ip = s.ip := rfl
@[simp] theorem setReg16_mem (r : Reg16) (v : Word) : (s.setReg16 r v).mem = s.mem := rfl
@[simp] theorem setReg16_status (r : Reg16) (v : Word) : (s.setReg16 r v).status = s.status := rfl
@[simp] theorem setReg16_lines (r : Reg16) (v : Word) : (s.setReg16 r v).lines = s.lines := rfl
@[simp] theorem setReg16_changes (r : Reg16) (v : Word) : (s.setReg16 r v).changes = s.changes := rfl

@[simp] theorem setReg8_code (r : Reg8) (v : Byte) : (s.setReg8 r v).code = s.code := rfl
@[simp] theorem setReg8_mode (r : Reg8) (v : Byte) : (s.setReg8 r v).mode = s.mode := rfl
@[simp] theorem setReg8_segs (r : Reg8) (v : Byte) : (s.setReg8 r v).segs = s.segs := rfl
@[simp] theorem setReg8_flags (r : Reg8) (v : Byte) : (s.setReg8 r v).flags = s.flags := rfl
@[simp] theorem setReg8_ip (r : Reg8) (v : Byte) : (s.setReg8 r v).ip = s.ip := rfl
@[simp] theorem setReg8_mem (r : Reg8) (v : Byte) : (s.setReg8 r v).mem = s.mem := rfl
@[simp] theorem setReg8_status (r : Reg8) (v : Byte) : (s.setReg8 r v).status = s.status := rfl
@[simp] theorem setReg8_lines (r : Reg8) (v : Byte) : (s.setReg8 r v).lines = s.lines := rfl
@[simp] theorem setReg8_changes (r : Reg8) (v : Byte) : (s.setReg8 r v).changes = s.changes := rfl

@[simp] theorem setSreg_code (p : SReg) (v : Word) : (s.setSreg p v).code = s.code := rfl
@[simp] theorem setSreg_mode (p : SReg) (v : Word) : (s.setSreg p v).mode = s.mode := rfl
@[simp] theorem setSreg_regs (p : SReg) (v : Word) : (s.setSreg p v).regs = s.regs := rfl
@[simp] theorem setSreg_segs (p : SReg) (v : Word) : (s.setSreg p v).segs = s.segs.set p v := rfl
@[simp] theorem setSreg_flags (p : SReg) (v : Word) : (s.setSreg p v).flags = s.flags := rfl
@[simp] theorem setSreg_ip (p : SReg) (v : Word) : (s.setSreg p v).ip = s.ip := rfl
@[simp] theorem setSreg_mem (p : SReg) (v : Word) : (s.setSreg p v).mem = s.mem := rfl
@[simp] theorem setSreg_status (p : SReg) (v : Word) : (s.setSreg p v).status = s.status := rfl
@[simp] theorem setSreg_lines (p : SReg) (v : Word) : (s.setSreg p v).lines = s.lines := rfl
@[simp] theorem setSreg_changes (p : SReg) (v : Word) : (s.setSreg p v).changes = s.changes := rfl

@[simp] theorem writeByte_code (a : Nat) (v : Byte) : (s.writeByte a v).code = s.code := rfl
@[simp] theorem writeByte_mode (a : Nat) (v : Byte) : (s.writeByte a v).mode = s.mode := rfl
@[simp] theorem writeByte_regs (a : Nat) (v : Byte) : (s.writeByte a v).regs = s.regs := rfl
@[simp] theorem writeByte_segs (a : Nat) (v : Byte) : (s.writeByte a v).segs = s.segs := rfl
@[simp] theorem writeByte_flags (a : Nat) (v : Byte) : (s.writeByte a v).flags = s.flags := rfl
@[simp] theorem writeByte_ip (a : Nat) (v : Byte) : (s.writeByte a v).ip = s.ip := rfl
@[simp] theorem writeByte_mem (a : Nat) (v : Byte) : (s.writeByte a v).mem = s.mem.writeByte s.code a v := rfl
@[simp] theorem writeByte_status (a : Nat) (v : Byte) : (s.writeByte a v).status = s.status := rfl
@[simp] theorem writeByte_lines (a : Nat) (v : Byte) : (s.writeByte a v).lines = s.lines := rfl
@[simp] theorem writeByte_changes (a : Nat) (v : Byte) : (s.writeByte a v).changes = s.changes := rfl

@[simp] theorem writeWord_code (a : Nat) (v : Word) : (s.writeWord a v).code = s.code := rfl
@[simp] theorem writeWord_mode (a : Nat) (v : Word) : (s.writeWord a v).mode = s.mode := rfl
@[simp] theorem writeWord_regs (a : Nat) (v : Word) : (s.writeWord a v).regs = s.regs := rfl
@[simp] theorem writeWord_segs (a : Nat) (v : Word) : (s.writeWord a v).segs = s.segs := rfl
@[simp] theorem writeWord_flags (a : Nat) (v : Word) : (s.writeWord a v).flags = s.flags := rfl
@[simp] theorem writeWord_ip (a : Nat) (v : Word) : (s.writeWord a v).ip = s.ip := rfl
@[simp] theorem writeWord_status (a : Nat) (v : Word) : (s.writeWord a v).status = s.status := rfl
@[simp] theorem writeWord_lines (a : Nat) (v : Word) : (s.writeWord a v).lines = s.lines := rfl
@[simp] theorem writeWord_changes (a : Nat) (v : Word) : (s.writeWord a v).changes = s.changes := rfl

@[simp] theorem setFlags_code (f : Flags) : (s.setFlags f).code = s.code := rfl
@[simp] theorem setFlags_mode (f : Flags) : (s.setFlags f).mode = s.mode := rfl
@[simp] theorem setFlags_regs (f : Flags) : (s.setFlags f).regs = s.regs := rfl
@[simp] theorem setFlags_segs (f : Flags) : (s.setFlags f).segs = s.segs := rfl
@[simp] theorem setFlags_flags (f : Flags) : (s.setFlags f).flags = f := rfl
@[simp] theorem setFlags_ip (f : Flags) : (s.setFlags f).ip = s.ip := rfl
@[simp] theorem setFlags_mem (f : Flags) : (s.setFlags f).mem = s.mem := rfl
@[simp] theorem setFlags_status (f : Flags) : (s.setFlags f).status = s.status := rfl
@[simp] theorem setFlags_lines (f : Flags) : (s.setFlags f).lines = s.lines := rfl
@[simp] theorem setFlags_changes (f : Flags) : (s.setFlags f).changes = s.changes := rfl

@[simp] theorem advance_code (n : Nat) : (s.advance n).code = s.code := rfl
@[simp] theorem advance_mode (n : Nat) : (s.advance n).mode = s.mode := rfl
@[simp] theorem advance_regs (n : Nat) : (s.advance n).regs = s.regs := rfl
@[simp] theorem advance_segs (n : Nat) : (s.advance n).segs = s.segs := rfl
@[simp] theorem advance_flags (n : Nat) : (s.advance n).flags = s.flags := rfl
@[simp] theorem advance_ip (n : Nat) : (s.advance n).ip = s.ip + n := rfl
@[simp] theorem advance_mem (n : Nat) : (s.advance n).mem = s.mem := rfl
@[simp] theorem advance_status (n : Nat) : (s.advance n).status = s.status := rfl
@[simp] theorem advance_lines (n : Nat) : (s.advance n).lines = s.lines := rfl
@[simp] theorem advance_changes (n : Nat) : (s.advance n).changes = s.changes := rfl

@[simp] theorem jumpTo_code (n : Nat) : (s.jumpTo n).code = s.code := rfl
@[simp] theorem jumpTo_mode (n : Nat) : (s.jumpTo n).mode = s.mode := rfl
@[simp] theorem jumpTo_regs (n : Nat) : (s.jumpTo n).regs = s.regs := rfl
@[simp] theorem jumpTo_segs (n : Nat) : (s.jumpTo n).segs = s.segs := rfl
@[simp] theorem jumpTo_flags (n : Nat) : (s.jumpTo n).flags = s.flags := rfl
@[simp] theorem jumpTo_ip (n : Nat) : (s.jumpTo n).ip = n := rfl
@[simp] theorem jumpTo_mem (n : Nat) : (s.jumpTo n).mem = s.mem := rfl
@[simp] theorem jumpTo_status (n : Nat) : (s.jumpTo n).status = s.status := rfl
@[simp] theorem jumpTo_lines (n : Nat) : (s.jumpTo n).lines = s.lines := rfl
@[simp] theorem jumpTo_changes (n : Nat) : (s.jumpTo n).changes = s.changes := rfl

@[simp] theorem raise_code (k : ErrorKind) (c : Context) : (s.raise k c).code = s.code := rfl
@[simp] theorem raise_mode (k : ErrorKind) (c : Context) : (s.raise k c).mode = s.mode := rfl
@[simp] theorem raise_regs (k : ErrorKind) (c : Context) : (s.raise k c).regs = s.regs := rfl
@[simp] theorem raise_segs (k : ErrorKind) (c : Context) : (s.raise k c).segs = s.segs := rfl
@[simp] theorem raise_flags (k : ErrorKind) (c : Context) : (s.raise k c).flags = s.flags := rfl
@[simp] theorem raise_ip (k : ErrorKind) (c : Context) : (s.raise k c).ip = s.ip := rfl
@[simp] theorem raise_mem (k : ErrorKind) (c : Context) : (s.raise k c).mem = s.mem := rfl
@[simp] theorem raise_status (k : ErrorKind) (c : Context) : (s.raise k c).status = .error k c := rfl
@[simp] theorem raise_lines (k : ErrorKind) (c : Context) : (s.raise k c).lines = s.lines := rfl
@[simp] theorem raise_changes (k : ErrorKind) (c : Context) : (s.raise k c).changes = s.changes := rfl

@[simp] theorem exhaust_code : (s.exhaust).code = s.code := rfl
@[simp] theorem exhaust_mode : (s.exhaust).mode = s.mode := rfl
@[simp] theorem exhaust_regs : (s.exhaust).regs = s.regs := rfl
@[simp] theorem exhaust_segs : (s.exhaust).segs = s.segs := rfl
@[simp] theorem exhaust_flags : (s.exhaust).flags = s.flags := rfl
@[simp] theorem exhaust_ip : (s.exhaust).ip = s.ip := rfl
@[simp] theorem exhaust_mem : (s.exhaust).mem = s.mem := rfl
@[simp] theorem exhaust_status : (s.exhaust).status = .exhausted := rfl
@[simp] theorem exhaust_lines : (s.exhaust).lines = s.lines := rfl
@[simp] theorem exhaust_changes : (s.exhaust).changes = s.changes := rfl

/-! The accessors see only the field they read. -/

@[simp] theorem setReg16_sreg (r : Reg16) (v : Word) (q : SReg) : (s.setReg16 r v).sreg q = s.sreg q := rfl
@[simp] theorem setReg16_readByte (r : Reg16) (v : Word) (b : Nat) : (s.setReg16 r v).readByte b = s.readByte b := rfl
@[simp] theorem setReg16_readWord (r : Reg16) (v : Word) (b : Nat) : (s.setReg16 r v).readWord b = s.readWord b := rfl
@[simp] theorem setReg8_sreg (r : Reg8) (v : Byte) (q : SReg) : (s.setReg8 r v).sreg q = s.sreg q := rfl
@[simp] theorem setReg8_readByte (r : Reg8) (v : Byte) (b : Nat) : (s.setReg8 r v).readByte b = s.readByte b := rfl
@[simp] theorem setReg8_readWord (r : Reg8) (v : Byte) (b : Nat) : (s.setReg8 r v).readWord b = s.readWord b := rfl
@[simp] theorem setSreg_reg16 (p : SReg) (v : Word) (q : Reg16) : (s.setSreg p v).reg16 q = s.reg16 q := rfl
@[simp] theorem setSreg_reg8 (p : SReg) (v : Word) (q : Reg8) : (s.setSreg p v).reg8 q = s.reg8 q := rfl
@[simp] theorem setSreg_readByte (p : SReg) (v : Word) (b : Nat) : (s.setSreg p v).readByte b = s.readByte b := rfl
@[simp] theorem setSreg_readWord (p : SReg) (v : Word) (b : Nat) : (s.setSreg p v).readWord b = s.readWord b := rfl
@[simp] theorem writeByte_reg16 (a : Nat) (v : Byte) (q : Reg16) : (s.writeByte a v).reg16 q = s.reg16 q := rfl
@[simp] theorem writeByte_reg8 (a : Nat) (v : Byte) (q : Reg8) : (s.writeByte a v).reg8 q = s.reg8 q := rfl
@[simp] theorem writeByte_sreg (a : Nat) (v : Byte) (q : SReg) : (s.writeByte a v).sreg q = s.sreg q := rfl
@[simp] theorem writeWord_reg16 (a : Nat) (v : Word) (q : Reg16) : (s.writeWord a v).reg16 q = s.reg16 q := rfl
@[simp] theorem writeWord_reg8 (a : Nat) (v : Word) (q : Reg8) : (s.writeWord a v).reg8 q = s.reg8 q := rfl
@[simp] theorem writeWord_sreg (a : Nat) (v : Word) (q : SReg) : (s.writeWord a v).sreg q = s.sreg q := rfl
@[simp] theorem setFlags_reg16 (f : Flags) (q : Reg16) : (s.setFlags f).reg16 q = s.reg16 q := rfl
@[simp] theorem setFlags_reg8 (f : Flags) (q : Reg8) : (s.setFlags f).reg8 q = s.reg8 q := rfl
@[simp] theorem setFlags_sreg (f : Flags) (q : SReg) : (s.setFlags f).sreg q = s.sreg q := rfl
@[simp] theorem setFlags_readByte (f : Flags) (b : Nat) : (s.setFlags f).readByte b = s.readByte b := rfl
@[simp] theorem setFlags_readWord (f : Flags) (b : Nat) : (s.setFlags f).readWord b = s.readWord b := rfl
@[simp] theorem advance_reg16 (n : Nat) (q : Reg16) : (s.advance n).reg16 q = s.reg16 q := rfl
@[simp] theorem advance_reg8 (n : Nat) (q : Reg8) : (s.advance n).reg8 q = s.reg8 q := rfl
@[simp] theorem advance_sreg (n : Nat) (q : SReg) : (s.advance n).sreg q = s.sreg q := rfl
@[simp] theorem advance_readByte (n : Nat) (b : Nat) : (s.advance n).readByte b = s.readByte b := rfl
@[simp] theorem advance_readWord (n : Nat) (b : Nat) : (s.advance n).readWord b = s.readWord b := rfl
@[simp] theorem jumpTo_reg16 (n : Nat) (q : Reg16) : (s.jumpTo n).reg16 q = s.reg16 q := rfl
@[simp] theorem jumpTo_reg8 (n : Nat) (q : Reg8) : (s.jumpTo n).reg8 q = s.reg8 q := rfl
@[simp] theorem jumpTo_sreg (n : Nat) (q : SReg) : (s.jumpTo n).sreg q = s.sreg q := rfl
@[simp] theorem jumpTo_readByte (n : Nat) (b : Nat) : (s.jumpTo n).readByte b = s.readByte b := rfl
@[simp] theorem jumpTo_readWord (n : Nat) (b : Nat) : (s.jumpTo n).readWord b = s.readWord b := rfl
@[simp] theorem raise_reg16 (k : ErrorKind) (c : Context) (q : Reg16) : (s.raise k c).reg16 q = s.reg16 q := rfl
@[simp] theorem raise_reg8 (k : ErrorKind) (c : Context) (q : Reg8) : (s.raise k c).reg8 q = s.reg8 q := rfl
@[simp] theorem raise_sreg (k : ErrorKind) (c : Context) (q : SReg) : (s.raise k c).sreg q = s.sreg q := rfl
@[simp] theorem raise_readByte (k : ErrorKind) (c : Context) (b : Nat) : (s.raise k c).readByte b = s.readByte b := rfl
@[simp] theorem raise_readWord (k : ErrorKind) (c : Context) (b : Nat) : (s.raise k c).readWord b = s.readWord b := rfl
@[simp] theorem exhaust_reg16 (q : Reg16) : (s.exhaust).reg16 q = s.reg16 q := rfl
@[simp] theorem exhaust_reg8 (q : Reg8) : (s.exhaust).reg8 q = s.reg8 q := rfl
@[simp] theorem exhaust_sreg (q : SReg) : (s.exhaust).sreg q = s.sreg q := rfl
@[simp] theorem exhaust_readByte (b : Nat) : (s.exhaust).readByte b = s.readByte b := rfl
@[simp] theorem exhaust_readWord (b : Nat) : (s.exhaust).readWord b = s.readWord b := rfl

end Sys2Proof.Machine
end

