-- ==== Sys2Proof/Laws/Memory.lean ====
section
/-! SUPPORT. The laws of memory (spec/20_memory.md R47 to R51): a read after a write, what a write leaves alone, and that every memory
operation keeps the canonical form. -/

namespace Sys2Proof.Machine

/-! ### The list -/

theorem Memory.find_put (m : Memory) (a b : Nat) (v : Byte) :
    (m.put a v).find b = if a = b then some v else m.find b := by
  induction m with
  | nil => simp [Memory.put, Memory.find]
  | cons c m ih =>
    by_cases h1 : a < c.1
    · simp [Memory.put, h1, Memory.find]
    · by_cases h2 : a = c.1
      · subst h2; simp only [Memory.put, lt_irrefl, if_false, if_true, Memory.find]; split <;> simp_all
      · simp only [Memory.put, h1, h2, if_false, Memory.find, ih]
        split
        · next h => subst h; simp [h2]
        · rfl

theorem Memory.find_remove (m : Memory) (a b : Nat) :
    (m.remove a).find b = if a = b then none else m.find b := by
  induction m with
  | nil => simp [Memory.remove, Memory.find]
  | cons c m ih =>
    by_cases h : c.1 = a
    · simp only [Memory.remove, h, if_true, ih, Memory.find]; split <;> simp_all
    · simp only [Memory.remove, h, if_false, Memory.find, ih]
      split
      · next h2 => simp [← h2, Ne.symm h]
      · rfl

/-- A read after a write (R50, R51): the byte written at its address, the old byte anywhere else. -/
theorem Memory.readByte_writeByte (code : List Byte) (m : Memory) (a b : Nat) (v : Byte) :
    (m.writeByte code a v).readByte code b = if a = b then v else m.readByte code b := by
  unfold Memory.writeByte Memory.readByte
  split
  · next h => rw [Memory.find_remove]; split <;> simp_all
  · rw [Memory.find_put]; split <;> simp_all

/-! ### Through the state -/

@[simp] theorem readByte_writeByte (s : State) (a b : Nat) (v : Byte) :
    (s.writeByte a v).readByte b = if a = b then v else s.readByte b :=
  Memory.readByte_writeByte s.code s.mem a b v

theorem readByte_writeWord (s : State) (a b : Nat) (v : Word) :
    (s.writeWord a v).readByte b = if a + 1 = b then hiByte v else if a = b then loByte v else s.readByte b := by
  simp [State.writeWord]

@[simp] theorem readWord_writeWord (s : State) (a : Nat) (v : Word) : (s.writeWord a v).readWord a = v := by
  simp [State.readWord, readByte_writeWord]

/-! ### The canonical form -/

theorem Memory.wf_iff (code : List Byte) (m : Memory) :
    m.wf code = true ↔
      m.Pairwise (fun c d => c.1 < d.1) ∧ ∀ c ∈ m, c.1 < Config.memorySize ∧ c.2 ≠ resetByte code c.1 := by
  simp [Memory.wf, List.all_eq_true]

theorem Memory.mem_remove {m : Memory} {a : Nat} {c : Host.Cell} (h : c ∈ m.remove a) : c ∈ m := by
  induction m with
  | nil => simp [Memory.remove] at h
  | cons d m ih =>
    simp only [Memory.remove] at h
    split at h
    · exact List.mem_cons_of_mem _ (ih h)
    · rcases List.mem_cons.1 h with rfl | h
      · exact List.mem_cons_self
      · exact List.mem_cons_of_mem _ (ih h)

theorem Memory.mem_put {m : Memory} {a : Nat} {v : Byte} {c : Host.Cell} (h : c ∈ m.put a v) : c = (a, v) ∨ c ∈ m := by
  induction m with
  | nil => simpa [Memory.put] using h
  | cons d m ih =>
    simp only [Memory.put] at h
    split at h
    · rcases List.mem_cons.1 h with rfl | h
      · exact .inl rfl
      · exact .inr h
    · split at h
      · rcases List.mem_cons.1 h with rfl | h
        · exact .inl rfl
        · exact .inr (List.mem_cons_of_mem _ h)
      · rcases List.mem_cons.1 h with rfl | h
        · exact .inr List.mem_cons_self
        · exact (ih h).imp id (List.mem_cons_of_mem _)

theorem Memory.pairwise_remove {m : Memory} {a : Nat} (h : m.Pairwise (fun c d => c.1 < d.1)) :
    (m.remove a).Pairwise (fun c d => c.1 < d.1) := by
  induction m with
  | nil => simp [Memory.remove]
  | cons d m ih =>
    obtain ⟨hd, hm⟩ := List.pairwise_cons.1 h
    simp only [Memory.remove]
    split
    · exact ih hm
    · exact List.pairwise_cons.2 ⟨fun c hc => hd c (Memory.mem_remove hc), ih hm⟩

theorem Memory.pairwise_put {m : Memory} {a : Nat} {v : Byte} (h : m.Pairwise (fun c d => c.1 < d.1)) :
    (m.put a v).Pairwise (fun c d => c.1 < d.1) := by
  induction m with
  | nil => simp [Memory.put]
  | cons d m ih =>
    obtain ⟨hd, hm⟩ := List.pairwise_cons.1 h
    simp only [Memory.put]
    split
    · next hlt =>
      refine List.pairwise_cons.2 ⟨fun c hc => ?_, h⟩
      rcases List.mem_cons.1 hc with rfl | hc
      · exact hlt
      · exact lt_trans hlt (hd c hc)
    · split
      · next he => exact List.pairwise_cons.2 ⟨fun c hc => by simpa [he] using hd c hc, hm⟩
      · refine List.pairwise_cons.2 ⟨fun c hc => ?_, ih hm⟩
        rcases Memory.mem_put hc with rfl | hc
        · simp; omega
        · exact hd c hc

/-- Every write inside Memory keeps the canonical form. -/
theorem Memory.wf_writeByte {code : List Byte} {m : Memory} {a : Nat} (v : Byte) (ha : a < Config.memorySize)
    (h : m.wf code = true) : (m.writeByte code a v).wf code = true := by
  rw [Memory.wf_iff] at h ⊢
  unfold Memory.writeByte
  split
  · exact ⟨Memory.pairwise_remove h.1, fun c hc => h.2 c (Memory.mem_remove hc)⟩
  · next hv =>
    refine ⟨Memory.pairwise_put h.1, fun c hc => ?_⟩
    rcases Memory.mem_put hc with rfl | hc
    · exact ⟨ha, hv⟩
    · exact h.2 c hc

theorem Memory.find_eq_none_of_lt {m : Memory} {a : Nat} (h : ∀ c ∈ m, a < c.1) : m.find a = none := by
  induction m with
  | nil => rfl
  | cons c m ih =>
    have := h c List.mem_cons_self
    simp only [Memory.find]
    rw [if_neg (by omega)]
    exact ih fun d hd => h d (List.mem_cons_of_mem _ hd)

theorem Memory.find_of_mem {m : Memory} (h : m.Pairwise (fun c d => c.1 < d.1)) {c : Host.Cell} (hc : c ∈ m) :
    m.find c.1 = some c.2 := by
  induction m with
  | nil => simp at hc
  | cons d m ih =>
    obtain ⟨hd, hm⟩ := List.pairwise_cons.1 h
    simp only [Memory.find]
    rcases List.mem_cons.1 hc with rfl | hc
    · simp
    · rw [if_neg (by have := hd c hc; omega)]
      exact ih hm hc

theorem Memory.mem_of_find {m : Memory} {a : Nat} {v : Byte} (h : m.find a = some v) : (a, v) ∈ m := by
  induction m with
  | nil => simp [Memory.find] at h
  | cons d m ih =>
    simp only [Memory.find] at h
    split at h
    · next he =>
      obtain ⟨x, y⟩ := d
      simp at he h
      simp [he, h]
    · exact List.mem_cons_of_mem _ (ih h)

theorem Memory.lt_of_mem_tail {m : Memory} {c d : Host.Cell} (h : (c :: m).Pairwise (fun c d => c.1 < d.1)) (hd : d ∈ m) :
    c.1 < d.1 := (List.pairwise_cons.1 h).1 d hd

/-- Two rising lists with the same entries are the same list. -/
theorem Memory.eq_of_find_eq {m m' : Memory} (h : m.Pairwise (fun c d => c.1 < d.1)) (h' : m'.Pairwise (fun c d => c.1 < d.1))
    (hf : ∀ a, m.find a = m'.find a) : m = m' := by
  have key : ∀ c : Host.Cell, c ∈ m ↔ c ∈ m' := fun c =>
    ⟨fun hc => Memory.mem_of_find ((hf c.1).symm.trans (Memory.find_of_mem h hc)),
     fun hc => Memory.mem_of_find ((hf c.1).trans (Memory.find_of_mem h' hc))⟩
  have nd : ∀ {l : Memory}, l.Pairwise (fun c d => c.1 < d.1) → l.Nodup := fun hl =>
    hl.imp fun hlt he => by simp [he] at hlt
  exact List.Perm.eq_of_pairwise (le := fun c d : Host.Cell => c.1 < d.1) (fun a b _ _ hab hba => absurd hab (by omega)) h h'
    ((List.perm_ext_iff_of_nodup (nd h) (nd h')).2 key)

/-- Equal memories are equal data: two canonical memories over one image that read the same at every address are the same list. -/
theorem Memory.eq_of_readByte_eq {code : List Byte} {m m' : Memory} (h : m.wf code = true) (h' : m'.wf code = true)
    (hr : ∀ a, m.readByte code a = m'.readByte code a) : m = m' := by
  rw [Memory.wf_iff] at h h'
  have one : ∀ {l l' : Memory} {a : Nat} {v : Byte}, (∀ c ∈ l, c.2 ≠ resetByte code c.1) →
      (∀ a, l.readByte code a = l'.readByte code a) → l.find a = some v → l'.find a = some v := by
    intro l l' a v hl hr hv
    have h1 := hr a
    simp only [Memory.readByte, hv, Option.getD_some] at h1
    cases hw : l'.find a with
    | none => rw [hw] at h1; exact absurd h1 (hl _ (Memory.mem_of_find hv))
    | some w => rw [hw] at h1; rw [h1]; rfl
  refine Memory.eq_of_find_eq h.1 h'.1 fun a => ?_
  cases hv : m.find a with
  | some v => exact (one (fun c hc => (h.2 c hc).2) hr hv).symm
  | none =>
    cases hw : m'.find a with
    | none => rfl
    | some w => rw [one (fun c hc => (h'.2 c hc).2) (fun a => (hr a).symm) hw] at hv; exact absurd hv (by simp)

end Sys2Proof.Machine
end

