-- ==== Sys2Proof/Laws/Registers.lean ====
section
/-! SUPPORT. The laws of the registers and their 8-bit views (spec/10_state.md R21 to R25). -/

namespace Sys2Proof.Machine

@[simp] theorem RegFile.get_set (f : RegFile) (r q : Reg16) (v : Word) : (f.set r v).get q = if r = q then v else f.get q := by
  cases r <;> cases q <;> rfl

@[simp] theorem SegFile.get_set (f : SegFile) (r q : SReg) (v : Word) : (f.set r v).get q = if r = q then v else f.get q := by
  cases r <;> cases q <;> rfl

theorem RegFile.ext_get {f g : RegFile} (h : ∀ r, f.get r = g.get r) : f = g := by
  cases f; cases g
  have := h .ax; have := h .cx; have := h .dx; have := h .bx; have := h .sp; have := h .bp; have := h .si; have := h .di
  simp_all [RegFile.get]

@[simp] theorem reg16_setReg16 (s : State) (r q : Reg16) (v : Word) :
    (s.setReg16 r v).reg16 q = if r = q then v else s.reg16 q := by simp [State.reg16]

@[simp] theorem sreg_setSreg (s : State) (r q : SReg) (v : Word) :
    (s.setSreg r v).sreg q = if r = q then v else s.sreg q := by simp [State.sreg]

theorem and_low_byte (p : Word) : p &&& 0xFF#16 = BitVec.ofNat 16 (p.toNat % 256) := by
  apply BitVec.eq_of_toNat_eq
  have : p.toNat &&& 255 = p.toNat % 2 ^ 8 := Nat.and_two_pow_sub_one_eq_mod p.toNat 8
  simp [this]; omega

/-- R24: a high view is the parent's high byte, a low view its low byte. -/
theorem reg8_eq (s : State) (r : Reg8) :
    s.reg8 r = if r.high then hiByte (s.reg16 r.parent) else loByte (s.reg16 r.parent) := by
  unfold State.reg8
  apply BitVec.eq_of_toNat_eq
  cases r.high
  · simp [and_low_byte, toNat_loByte]
  · simp [and_low_byte, toNat_hiByte, Nat.shiftRight_eq_div_pow]
    have := (s.reg16 r.parent).isLt
    omega

theorem and_high_byte_or (p : Word) (v : Byte) : (p &&& 0xFF00#16) ||| v.setWidth 16 = wordOf v (hiByte p) := by
  apply BitVec.eq_of_getLsbD_eq
  intro i hi
  simp only [wordOf, hiByte]
  rw [BitVec.getLsbD_append]
  interval_cases i <;> simp

theorem and_low_byte_or (p : Word) (v : Byte) : (p &&& 0x00FF#16) ||| (v.setWidth 16 <<< 8) = wordOf (loByte p) v := by
  apply BitVec.eq_of_getLsbD_eq
  intro i hi
  simp only [wordOf, loByte]
  rw [BitVec.getLsbD_append]
  interval_cases i <;> simp

/-- R24: a write through a view is a write of the parent that keeps its other byte. -/
theorem setReg8_eq (s : State) (r : Reg8) (v : Byte) :
    s.setReg8 r v = s.setReg16 r.parent
      (if r.high then wordOf (loByte (s.reg16 r.parent)) v else wordOf v (hiByte (s.reg16 r.parent))) := by
  simp only [State.setReg8, and_low_byte_or, and_high_byte_or]

/-- R24: a view reads back what was written to it, and every other view is unchanged. -/
@[simp] theorem reg8_setReg8 (s : State) (r q : Reg8) (v : Byte) :
    (s.setReg8 r v).reg8 q = if r = q then v else s.reg8 q := by
  rw [setReg8_eq, reg8_eq, reg8_eq s q, reg16_setReg16]
  cases r <;> cases q <;> simp [Reg8.high, Reg8.parent]

/-- R24: a write through a view changes no register but its parent. -/
theorem reg16_setReg8_of_ne (s : State) (r : Reg8) (q : Reg16) (v : Byte) (h : q ≠ r.parent) :
    (s.setReg8 r v).reg16 q = s.reg16 q := by
  rw [setReg8_eq, reg16_setReg16, if_neg (Ne.symm h)]

/-- R22: a write of a register gives both halves of it. -/
theorem reg8_setReg16 (s : State) (r : Reg16) (q : Reg8) (v : Word) :
    (s.setReg16 r v).reg8 q = if r = q.parent then (if q.high then hiByte v else loByte v) else s.reg8 q := by
  rw [reg8_eq, reg8_eq s q, reg16_setReg16]
  cases q.high <;> by_cases h : r = q.parent <;> simp [h]

end Sys2Proof.Machine
end

