-- ==== Sys2Proof/Laws/Operands.lean ====
section
/-! SUPPORT. What a read or write of an operand does (spec/40_sequencer_and_renderer.md R118 to R120): one lemma for each. -/

namespace Sys2Proof.Machine

theorem writeLoc8_kept (s : State) (l : Loc8) (v : Byte) : KeptBut (.byte l) s (s.writeLoc8 l v) := by
  cases l with
  | reg r =>
    exact ⟨⟨fun q h => reg16_setReg8_of_ne s r q v h, fun q h => by simp [State.writeLoc8, Ne.symm h]⟩,
      fun _ => rfl, fun _ _ => rfl, rfl, rfl, rfl, rfl, rfl⟩
  | mem m =>
    refine ⟨fun _ => rfl, fun _ => rfl, fun a h => ?_, rfl, rfl, rfl, rfl, rfl⟩
    simp only [Dest.addresses, List.mem_singleton] at h
    simp [State.writeLoc8, Ne.symm h]

theorem writeLoc16_kept (s : State) (l : Loc16) (v : Word) : KeptBut (.word l) s (s.writeLoc16 l v) := by
  cases l with
  | reg r =>
    exact ⟨fun q h => by simp [State.writeLoc16, Ne.symm h], fun _ => rfl, fun _ _ => rfl, rfl, rfl, rfl, rfl, rfl⟩
  | sreg q =>
    exact ⟨fun _ => rfl, fun q h => by simp [State.writeLoc16, Ne.symm h], fun _ _ => rfl, rfl, rfl, rfl, rfl, rfl⟩
  | mem m =>
    refine ⟨fun _ => rfl, fun _ => rfl, fun a h => ?_, rfl, rfl, rfl, rfl, rfl⟩
    simp only [Dest.addresses, List.mem_cons, List.not_mem_nil, or_false, not_or] at h
    simp [State.writeLoc16, readByte_writeWord, Ne.symm h.1, Ne.symm h.2]

@[simp] theorem held8_writeLoc8 (s : State) (l : Loc8) (v : Byte) : held8 s (s.writeLoc8 l v) l = v := by
  cases l <;> simp [held8, State.writeLoc8]

@[simp] theorem held16_writeLoc16 (s : State) (l : Loc16) (v : Word) : held16 s (s.writeLoc16 l v) l = v := by
  cases l <;> simp [held16, State.writeLoc16]

@[simp] theorem writeLoc8_flags (s : State) (l : Loc8) (v : Byte) : (s.writeLoc8 l v).flags = s.flags := by cases l <;> rfl
@[simp] theorem writeLoc8_ip (s : State) (l : Loc8) (v : Byte) : (s.writeLoc8 l v).ip = s.ip := by cases l <;> rfl
@[simp] theorem writeLoc16_flags (s : State) (l : Loc16) (v : Word) : (s.writeLoc16 l v).flags = s.flags := by cases l <;> rfl
@[simp] theorem writeLoc16_ip (s : State) (l : Loc16) (v : Word) : (s.writeLoc16 l v).ip = s.ip := by cases l <;> rfl

/-- The frame says nothing about `ip` and the flags. -/
theorem KeptBut.moved {d : Dest} {s t : State} (h : KeptBut d s t) (n : Nat) : KeptBut d s (t.advance n) := by
  obtain ⟨h1, h2, h3, h4, h5, h6, h7, h8⟩ := h
  refine ⟨?_, ?_, h3, h4, h5, h6, h7, h8⟩
  · rcases d with _ | ⟨_ | _⟩ | ⟨_ | _ | _⟩ <;> exact h1
  · rcases d with _ | _ | ⟨_ | _ | _⟩ <;> exact h2

/-- The frame says nothing about `ip` and the flags. -/
theorem KeptBut.flagged {d : Dest} {s t : State} (h : KeptBut d s t) (f : Flags) : KeptBut d s (t.setFlags f) := by
  obtain ⟨h1, h2, h3, h4, h5, h6, h7, h8⟩ := h
  refine ⟨?_, ?_, h3, h4, h5, h6, h7, h8⟩
  · rcases d with _ | ⟨_ | _⟩ | ⟨_ | _ | _⟩ <;> exact h1
  · rcases d with _ | _ | ⟨_ | _ | _⟩ <;> exact h2

theorem KeptBut.refl (s : State) : KeptBut .nowhere s s :=
  ⟨fun _ => rfl, fun _ => rfl, fun _ _ => rfl, rfl, rfl, rfl, rfl, rfl⟩

/-- R52, R54: an effective address and the byte after it are inside Memory. -/
theorem ea_lt (s : State) (m : MemRef) : (s.ea m).toNat + 1 < Config.memorySize := by
  have := (s.ea m).isLt
  simp only [Config.memorySize]; omega

theorem signed8_eq (v : Byte) : signed8 v = v.toInt := by
  have := v.isLt
  simp only [signed8, BitVec.toInt]; split <;> split <;> omega

theorem signed16_eq (v : Word) : signed16 v = v.toInt := by
  have := v.isLt
  simp only [signed16, BitVec.toInt]; split <;> split <;> omega

/-- R77: sign extension keeps the value, modulo 65,536. -/
theorem toNat_sext16 (v : Byte) : ((sext16 v).toNat : Int) = signed8 v % 65536 := by
  rw [signed8_eq, sext16, BitVec.signExtend, BitVec.toNat_ofInt]
  have : (0 : Int) ≤ v.toInt % 65536 := Int.emod_nonneg _ (by decide)
  simp; omega

end Sys2Proof.Machine
end

