-- ==== Sys2Proof/Laws/Exec.lean ====
section
/-! SUPPORT. What the shared operations behind the meanings do, said once: `mov`, `alu` and `branch`. -/

namespace Sys2Proof.Machine

/-! ### MOV -/

/-- R140 for an 8-bit destination. -/
theorem mov_byte (dst : Loc8) (src : Src8) (n : Nat) (s : State) :
    ∃ t, mov (.byte dst src) n s = .next t ∧ held8 s t dst = s.readSrc8 src ∧ t.ip = s.ip + n ∧ t.flags = s.flags ∧
      KeptBut (.byte dst) s t :=
  ⟨_, rfl, by cases dst <;> simp [held8, State.writeLoc8], by simp, by simp, (writeLoc8_kept s dst _).moved n⟩

/-- R140 for a 16-bit destination. -/
theorem mov_word (dst : Loc16) (src : Src16) (n : Nat) (s : State) :
    ∃ t, mov (.word dst src) n s = .next t ∧ held16 s t dst = s.readSrc16 src ∧ t.ip = s.ip + n ∧ t.flags = s.flags ∧
      KeptBut (.word dst) s t :=
  ⟨_, rfl, by cases dst <;> simp [held16, State.writeLoc16], by simp, by simp, (writeLoc16_kept s dst _).moved n⟩

/-! ### ALU -/

/-- R160, R161: the result as a number. -/
theorem toNat_result {n : Nat} (op : AluOp) (a b : BitVec n) : (op.result a b).toNat = aluNat op (2 ^ n) a.toNat b.toNat := by
  have ha := a.isLt
  have hb := b.isLt
  cases op
  · simp [AluOp.result, aluNat]
  · simp only [AluOp.result, aluNat, BitVec.toNat_sub]; congr 1; omega
  · simp only [AluOp.result, aluNat, BitVec.toNat_sub]; congr 1; omega

/-- R31: ZF. -/
theorem flagsOf_zf {n : Nat} (r : BitVec n) : (flagsOf r).zf = true ↔ r.toNat = 0 := by
  simp only [flagsOf, beq_iff_eq]
  exact ⟨fun h => by simp [h], fun h => BitVec.eq_of_toNat_eq (by simpa using h)⟩

/-- R31: SF. -/
theorem flagsOf_sf {n : Nat} (r : BitVec n) : (flagsOf r).sf = true ↔ 2 ^ (n - 1) ≤ r.toNat := by
  simp only [flagsOf]
  rw [BitVec.msb_eq_decide]; simp

/-- R160 for an 8-bit destination. -/
theorem alu_byte (op : AluOp) (dst : Loc8) (src : Src8) (n : Nat) (s : State) :
    ∃ t, alu op (.byte dst src) n s = .next t ∧
      (t.flags.zf = true ↔ aluNat op 256 (s.readLoc8 dst).toNat (s.readSrc8 src).toNat = 0) ∧
      (t.flags.sf = true ↔ 128 ≤ aluNat op 256 (s.readLoc8 dst).toNat (s.readSrc8 src).toNat) ∧
      (op ≠ .cmp → (held8 s t dst).toNat = aluNat op 256 (s.readLoc8 dst).toNat (s.readSrc8 src).toNat) ∧
      t.ip = s.ip + n ∧ KeptBut (aluDest op (.byte dst)) s t := by
  have hr := toNat_result op (s.readLoc8 dst) (s.readSrc8 src)
  refine ⟨_, rfl, ?_, ?_, ?_, ?_, ?_⟩
  · simp [flagsOf_zf, hr]
  · simp [flagsOf_sf, hr]
  · intro h
    rw [← show (2 ^ 8 : Nat) = 256 from rfl, ← hr]
    cases op with
    | add => cases dst <;> simp [AluOp.stores, held8, State.writeLoc8]
    | sub => cases dst <;> simp [AluOp.stores, held8, State.writeLoc8]
    | cmp => exact absurd rfl h
  · cases op <;> simp [AluOp.stores]
  · cases op with
    | add => exact ((writeLoc8_kept s dst _).flagged _).moved n
    | sub => exact ((writeLoc8_kept s dst _).flagged _).moved n
    | cmp => exact ((KeptBut.refl s).flagged _).moved n

/-- R160 for a 16-bit destination. -/
theorem alu_word (op : AluOp) (dst : Loc16) (src : Src16) (n : Nat) (s : State) :
    ∃ t, alu op (.word dst src) n s = .next t ∧
      (t.flags.zf = true ↔ aluNat op 65536 (s.readLoc16 dst).toNat (s.readSrc16 src).toNat = 0) ∧
      (t.flags.sf = true ↔ 32768 ≤ aluNat op 65536 (s.readLoc16 dst).toNat (s.readSrc16 src).toNat) ∧
      (op ≠ .cmp → (held16 s t dst).toNat = aluNat op 65536 (s.readLoc16 dst).toNat (s.readSrc16 src).toNat) ∧
      t.ip = s.ip + n ∧ KeptBut (aluDest op (.word dst)) s t := by
  have hr := toNat_result op (s.readLoc16 dst) (s.readSrc16 src)
  refine ⟨_, rfl, ?_, ?_, ?_, ?_, ?_⟩
  · simp [flagsOf_zf, hr]
  · simp [flagsOf_sf, hr]
  · intro h
    rw [← show (2 ^ 16 : Nat) = 65536 from rfl, ← hr]
    cases op with
    | add => cases dst <;> simp [AluOp.stores, held16, State.writeLoc16]
    | sub => cases dst <;> simp [AluOp.stores, held16, State.writeLoc16]
    | cmp => exact absurd rfl h
  · cases op <;> simp [AluOp.stores]
  · cases op with
    | add => exact ((writeLoc16_kept s dst _).flagged _).moved n
    | sub => exact ((writeLoc16_kept s dst _).flagged _).moved n
    | cmp => exact ((KeptBut.refl s).flagged _).moved n

/-! ### Branches -/

/-- R180: the three things a branch can do, guards included. -/
theorem branch_cases (cond : Bool) (byte0 rel : Byte) (s : State) :
    (cond = true ∧ branchTarget s.ip rel < 0 ∧ branch cond byte0 rel s =
      .next (s.raise .branchTargetNegative { ip := s.ip, byte0 := byte0, rel := some (signed8 rel) })) ∨
    (cond = true ∧ 0 ≤ branchTarget s.ip rel ∧ branch cond byte0 rel s = .next (s.jumpTo (branchTarget s.ip rel).toNat)) ∨
    (cond = false ∧ branch cond byte0 rel s = .next (s.advance 2)) := by
  unfold branch
  cases cond
  · exact .inr (.inr ⟨rfl, rfl⟩)
  · by_cases h : branchTarget s.ip rel < 0
    · exact .inl ⟨rfl, h, by simp [h]⟩
    · exact .inr (.inl ⟨rfl, not_lt.1 h, by simp [h]⟩)

end Sys2Proof.Machine
end

