-- ==== Sys2Proof/Laws/PerInstr.lean ====
section
/-! SUPPORT. The facts stated for every instruction as syntax, one lemma per constructor (LAWS.json "per_instruction"). -/

/-- R66, R75: an instruction's length is the number of bytes of its encoding, 2 to 6. -/
def Sys2Proof.Laws.EncodeLength.Statement (i : Sys2Proof.Instr) : Prop :=
  (Sys2Proof.encode i).length = i.length ∧ 2 ≤ i.length ∧ i.length ≤ 6

namespace Sys2Proof.Laws.EncodeLength

theorem movRmReg (d : Dir) (o : RmReg) : Statement (.movRmReg d o) := by
  rcases o with ⟨rm, r⟩ | ⟨rm, r⟩ <;> have := dispLen_le_two rm <;>
    simp [Statement, encode, RmReg.encode, Instr.length, RmReg.length] <;> omega
theorem movRmSreg (g : BitVec 1) (sr : SReg) (rm : Rm Reg16) : Statement (.movRmSreg g sr rm) := by
  have := dispLen_le_two rm
  simp [Statement, encode, Instr.length]; omega
theorem movSregRm (g : BitVec 1) (sr : SReg) (rm : Rm Reg16) : Statement (.movSregRm g sr rm) := by
  have := dispLen_le_two rm
  simp [Statement, encode, Instr.length]; omega
theorem movImmReg (o : RegImm) : Statement (.movImmReg o) := by
  cases o <;> simp [Statement, encode, RegImm.encode, Instr.length, RegImm.length]
theorem movImmRm (g : BitVec 3) (o : RmImm) : Statement (.movImmRm g o) := by
  rcases o with ⟨rm, v⟩ | ⟨rm, v⟩ <;> have := dispLen_le_two rm <;>
    simp [Statement, encode, RmImm.encode, Instr.length, RmImm.length] <;> omega
theorem movMemAcc (w : Width) (a : Word) : Statement (.movMemAcc w a) := by
  simp [Statement, encode, Instr.length]
theorem movAccMem (w : Width) (a : Word) : Statement (.movAccMem w a) := by
  simp [Statement, encode, Instr.length]
theorem addRmReg (d : Dir) (o : RmReg) : Statement (.addRmReg d o) := by
  rcases o with ⟨rm, r⟩ | ⟨rm, r⟩ <;> have := dispLen_le_two rm <;>
    simp [Statement, encode, RmReg.encode, Instr.length, RmReg.length] <;> omega
theorem addImmRm (o : RmImmAlu) : Statement (.addImmRm o) := by
  rcases o with ⟨s, rm, v⟩ | ⟨rm, v⟩ | ⟨rm, v⟩ <;> have := dispLen_le_two rm <;>
    simp [Statement, encode, RmImmAlu.encode, Instr.length, RmImmAlu.length] <;> omega
theorem addImmAcc (o : AccImm) : Statement (.addImmAcc o) := by
  cases o <;> simp [Statement, encode, AccImm.encode, Instr.length, AccImm.length]
theorem subRmReg (d : Dir) (o : RmReg) : Statement (.subRmReg d o) := by
  rcases o with ⟨rm, r⟩ | ⟨rm, r⟩ <;> have := dispLen_le_two rm <;>
    simp [Statement, encode, RmReg.encode, Instr.length, RmReg.length] <;> omega
theorem subImmRm (o : RmImmAlu) : Statement (.subImmRm o) := by
  rcases o with ⟨s, rm, v⟩ | ⟨rm, v⟩ | ⟨rm, v⟩ <;> have := dispLen_le_two rm <;>
    simp [Statement, encode, RmImmAlu.encode, Instr.length, RmImmAlu.length] <;> omega
theorem subImmAcc (o : AccImm) : Statement (.subImmAcc o) := by
  cases o <;> simp [Statement, encode, AccImm.encode, Instr.length, AccImm.length]
theorem cmpRmReg (d : Dir) (o : RmReg) : Statement (.cmpRmReg d o) := by
  rcases o with ⟨rm, r⟩ | ⟨rm, r⟩ <;> have := dispLen_le_two rm <;>
    simp [Statement, encode, RmReg.encode, Instr.length, RmReg.length] <;> omega
theorem cmpImmRm (o : RmImmAlu) : Statement (.cmpImmRm o) := by
  rcases o with ⟨s, rm, v⟩ | ⟨rm, v⟩ | ⟨rm, v⟩ <;> have := dispLen_le_two rm <;>
    simp [Statement, encode, RmImmAlu.encode, Instr.length, RmImmAlu.length] <;> omega
theorem cmpImmAcc (o : AccImm) : Statement (.cmpImmAcc o) := by
  cases o <;> simp [Statement, encode, AccImm.encode, Instr.length, AccImm.length]
theorem jo (rel : Byte) : Statement (.jo rel) := by
  simp [Statement, encode, Instr.length]
theorem jno (rel : Byte) : Statement (.jno rel) := by
  simp [Statement, encode, Instr.length]
theorem jb (rel : Byte) : Statement (.jb rel) := by
  simp [Statement, encode, Instr.length]
theorem jnb (rel : Byte) : Statement (.jnb rel) := by
  simp [Statement, encode, Instr.length]
theorem je (rel : Byte) : Statement (.je rel) := by
  simp [Statement, encode, Instr.length]
theorem jne (rel : Byte) : Statement (.jne rel) := by
  simp [Statement, encode, Instr.length]
theorem jbe (rel : Byte) : Statement (.jbe rel) := by
  simp [Statement, encode, Instr.length]
theorem ja (rel : Byte) : Statement (.ja rel) := by
  simp [Statement, encode, Instr.length]
theorem js (rel : Byte) : Statement (.js rel) := by
  simp [Statement, encode, Instr.length]
theorem jns (rel : Byte) : Statement (.jns rel) := by
  simp [Statement, encode, Instr.length]
theorem jp (rel : Byte) : Statement (.jp rel) := by
  simp [Statement, encode, Instr.length]
theorem jnp (rel : Byte) : Statement (.jnp rel) := by
  simp [Statement, encode, Instr.length]
theorem jl (rel : Byte) : Statement (.jl rel) := by
  simp [Statement, encode, Instr.length]
theorem jnl (rel : Byte) : Statement (.jnl rel) := by
  simp [Statement, encode, Instr.length]
theorem jle (rel : Byte) : Statement (.jle rel) := by
  simp [Statement, encode, Instr.length]
theorem jg (rel : Byte) : Statement (.jg rel) := by
  simp [Statement, encode, Instr.length]
theorem loopnz (rel : Byte) : Statement (.loopnz rel) := by
  simp [Statement, encode, Instr.length]
theorem loopz (rel : Byte) : Statement (.loopz rel) := by
  simp [Statement, encode, Instr.length]
theorem loop (rel : Byte) : Statement (.loop rel) := by
  simp [Statement, encode, Instr.length]
theorem jcxz (rel : Byte) : Statement (.jcxz rel) := by
  simp [Statement, encode, Instr.length]

end Sys2Proof.Laws.EncodeLength
end

