-- ==== Sys2Proof/Laws/Step.lean ====
section
/-! SUPPORT. What `exec` and `step` can do, said once: every instruction answers a next state, what no instruction touches, and the
four things a running step does (spec/40_sequencer_and_renderer.md R100 to R107). -/

namespace Sys2Proof

/-- R66, R75: the length of an encoding is the instruction's length, 2 to 6 (Laws/PerInstr.lean, all constructors). -/
theorem encodeLength (i : Instr) : Laws.EncodeLength.Statement i := by
  cases i with
  | movRmReg d o => exact Laws.EncodeLength.movRmReg d o
  | movRmSreg g sr rm => exact Laws.EncodeLength.movRmSreg g sr rm
  | movSregRm g sr rm => exact Laws.EncodeLength.movSregRm g sr rm
  | movImmReg o => exact Laws.EncodeLength.movImmReg o
  | movImmRm g o => exact Laws.EncodeLength.movImmRm g o
  | movMemAcc w a => exact Laws.EncodeLength.movMemAcc w a
  | movAccMem w a => exact Laws.EncodeLength.movAccMem w a
  | addRmReg d o => exact Laws.EncodeLength.addRmReg d o
  | addImmRm o => exact Laws.EncodeLength.addImmRm o
  | addImmAcc o => exact Laws.EncodeLength.addImmAcc o
  | subRmReg d o => exact Laws.EncodeLength.subRmReg d o
  | subImmRm o => exact Laws.EncodeLength.subImmRm o
  | subImmAcc o => exact Laws.EncodeLength.subImmAcc o
  | cmpRmReg d o => exact Laws.EncodeLength.cmpRmReg d o
  | cmpImmRm o => exact Laws.EncodeLength.cmpImmRm o
  | cmpImmAcc o => exact Laws.EncodeLength.cmpImmAcc o
  | jo rel => exact Laws.EncodeLength.jo rel
  | jno rel => exact Laws.EncodeLength.jno rel
  | jb rel => exact Laws.EncodeLength.jb rel
  | jnb rel => exact Laws.EncodeLength.jnb rel
  | je rel => exact Laws.EncodeLength.je rel
  | jne rel => exact Laws.EncodeLength.jne rel
  | jbe rel => exact Laws.EncodeLength.jbe rel
  | ja rel => exact Laws.EncodeLength.ja rel
  | js rel => exact Laws.EncodeLength.js rel
  | jns rel => exact Laws.EncodeLength.jns rel
  | jp rel => exact Laws.EncodeLength.jp rel
  | jnp rel => exact Laws.EncodeLength.jnp rel
  | jl rel => exact Laws.EncodeLength.jl rel
  | jnl rel => exact Laws.EncodeLength.jnl rel
  | jle rel => exact Laws.EncodeLength.jle rel
  | jg rel => exact Laws.EncodeLength.jg rel
  | loopnz rel => exact Laws.EncodeLength.loopnz rel
  | loopz rel => exact Laws.EncodeLength.loopz rel
  | loop rel => exact Laws.EncodeLength.loop rel
  | jcxz rel => exact Laws.EncodeLength.jcxz rel

@[simp] theorem length_encode (i : Instr) : (encode i).length = i.length := (encodeLength i).1

end Sys2Proof

namespace Sys2Proof.Machine

/-! ### exec -/

/-- How an instruction is executed: a MOV, an ALU operation, or a branch (spec/40_sequencer_and_renderer.md R107). -/
inductive Shape (i : Instr) : Prop
  | mov (roles : Roles) (ho : operandsOf i = .two roles) (ha : isAlu i.kind = false)
      (h : ∀ s, exec i s = Machine.mov roles i.length s)
  | alu (op : AluOp) (roles : Roles) (ho : operandsOf i = .two roles) (ha : isAlu i.kind = true)
      (h : ∀ s, exec i s = Machine.alu op roles i.length s)
  | taken (rel : Byte) (cond : Flags → Bool) (byte0 : Byte) (ho : operandsOf i = .jump rel) (ha : isAlu i.kind = false)
      (hl : i.length = 2) (hm : ∀ f, (i, cond f, byte0) ∈ takenJumps rel f) (h : ∀ s, exec i s = branch (cond s.flags) byte0 rel s)
  | untaken (rel : Byte) (ho : operandsOf i = .jump rel) (ha : isAlu i.kind = false) (hl : i.length = 2)
      (hm : i ∈ untakenJumps rel) (h : ∀ s, exec i s = .next (s.advance 2))

/-- Every instruction has one of the four shapes. -/
theorem shape (i : Instr) : Shape i := by
  cases i with
  | movRmReg _ _ => exact .mov _ rfl rfl fun _ => rfl
  | movRmSreg _ _ _ => exact .mov _ rfl rfl fun _ => rfl
  | movSregRm _ _ _ => exact .mov _ rfl rfl fun _ => rfl
  | movImmReg _ => exact .mov _ rfl rfl fun _ => rfl
  | movImmRm _ _ => exact .mov _ rfl rfl fun _ => rfl
  | movMemAcc _ _ => exact .mov _ rfl rfl fun _ => rfl
  | movAccMem _ _ => exact .mov _ rfl rfl fun _ => rfl
  | addRmReg _ _ => exact .alu .add _ rfl rfl fun _ => rfl
  | addImmRm _ => exact .alu .add _ rfl rfl fun _ => rfl
  | addImmAcc _ => exact .alu .add _ rfl rfl fun _ => rfl
  | subRmReg _ _ => exact .alu .sub _ rfl rfl fun _ => rfl
  | subImmRm _ => exact .alu .sub _ rfl rfl fun _ => rfl
  | subImmAcc _ => exact .alu .sub _ rfl rfl fun _ => rfl
  | cmpRmReg _ _ => exact .alu .cmp _ rfl rfl fun _ => rfl
  | cmpImmRm _ => exact .alu .cmp _ rfl rfl fun _ => rfl
  | cmpImmAcc _ => exact .alu .cmp _ rfl rfl fun _ => rfl
  | je rel => exact .taken rel (fun f => f.zf) 0x74#8 rfl rfl rfl (fun _ => by simp [takenJumps]) fun _ => rfl
  | jne rel => exact .taken rel (fun f => !f.zf) 0x75#8 rfl rfl rfl (fun _ => by simp [takenJumps]) fun _ => rfl
  | js rel => exact .taken rel (fun f => f.sf) 0x78#8 rfl rfl rfl (fun _ => by simp [takenJumps]) fun _ => rfl
  | jns rel => exact .taken rel (fun f => !f.sf) 0x79#8 rfl rfl rfl (fun _ => by simp [takenJumps]) fun _ => rfl
  | jo rel => exact .untaken rel rfl rfl rfl (by simp [untakenJumps]) fun _ => rfl
  | jno rel => exact .untaken rel rfl rfl rfl (by simp [untakenJumps]) fun _ => rfl
  | jb rel => exact .untaken rel rfl rfl rfl (by simp [untakenJumps]) fun _ => rfl
  | jnb rel => exact .untaken rel rfl rfl rfl (by simp [untakenJumps]) fun _ => rfl
  | jbe rel => exact .untaken rel rfl rfl rfl (by simp [untakenJumps]) fun _ => rfl
  | ja rel => exact .untaken rel rfl rfl rfl (by simp [untakenJumps]) fun _ => rfl
  | jp rel => exact .untaken rel rfl rfl rfl (by simp [untakenJumps]) fun _ => rfl
  | jnp rel => exact .untaken rel rfl rfl rfl (by simp [untakenJumps]) fun _ => rfl
  | jl rel => exact .untaken rel rfl rfl rfl (by simp [untakenJumps]) fun _ => rfl
  | jnl rel => exact .untaken rel rfl rfl rfl (by simp [untakenJumps]) fun _ => rfl
  | jle rel => exact .untaken rel rfl rfl rfl (by simp [untakenJumps]) fun _ => rfl
  | jg rel => exact .untaken rel rfl rfl rfl (by simp [untakenJumps]) fun _ => rfl
  | loopnz rel => exact .untaken rel rfl rfl rfl (by simp [untakenJumps]) fun _ => rfl
  | loopz rel => exact .untaken rel rfl rfl rfl (by simp [untakenJumps]) fun _ => rfl
  | loop rel => exact .untaken rel rfl rfl rfl (by simp [untakenJumps]) fun _ => rfl
  | jcxz rel => exact .untaken rel rfl rfl rfl (by simp [untakenJumps]) fun _ => rfl

/-- The destination of an instruction; a jump and CMP have none. -/
def destOf (i : Instr) : Dest :=
  match operandsOf i with
  | .jump _ => .nowhere
  | .two (.byte dst _) => .byte dst
  | .two (.word dst _) => .word dst

theorem KeptBut.refl_any (d : Dest) (s : State) : KeptBut d s s := by
  refine ⟨?_, ?_, fun _ _ => rfl, rfl, rfl, rfl, rfl, rfl⟩
  · rcases d with _ | ⟨_ | _⟩ | ⟨_ | _ | _⟩ <;> simp [Dest.regsKept]
  · rcases d with _ | _ | ⟨_ | _ | _⟩ <;> simp [Dest.segsKept]

/-- Every instruction answers a next state: the four outcomes, guards included. A MOV keeps the flags; only a taken branch with a
negative target ends in an error. -/
theorem exec_cases (i : Instr) (s : State) : ∃ t, exec i s = .next t ∧
    ((t.status = s.status ∧ t.ip = s.ip + i.length ∧ KeptBut (destOf i) s t ∧ (isAlu i.kind = false → t.flags = s.flags)) ∨
     (∃ rel byte0, operandsOf i = .jump rel ∧ (i, true, byte0) ∈ takenJumps rel s.flags ∧
        ((0 ≤ branchTarget s.ip rel ∧ t = s.jumpTo (branchTarget s.ip rel).toNat) ∨
         (branchTarget s.ip rel < 0 ∧
          t = s.raise .branchTargetNegative { ip := s.ip, byte0 := byte0, rel := some (signed8 rel) })))) := by
  cases shape i with
  | mov roles ho ha h =>
    rw [h, destOf, ho]
    rcases roles with ⟨dst, src⟩ | ⟨dst, src⟩
    · obtain ⟨t, h1, -, h3, h4, h5⟩ := mov_byte dst src i.length s
      exact ⟨t, h1, .inl ⟨h5.2.2.2.2.2.1, h3, h5, fun _ => h4⟩⟩
    · obtain ⟨t, h1, -, h3, h4, h5⟩ := mov_word dst src i.length s
      exact ⟨t, h1, .inl ⟨h5.2.2.2.2.2.1, h3, h5, fun _ => h4⟩⟩
  | alu op roles ho ha h =>
    rw [h, destOf, ho, ha]
    rcases roles with ⟨dst, src⟩ | ⟨dst, src⟩
    · refine ⟨_, rfl, .inl ?_⟩
      have hk : KeptBut (.byte dst) s (if op.stores then s.writeLoc8 dst (op.result (s.readLoc8 dst) (s.readSrc8 src)) else s) := by
        split
        · exact writeLoc8_kept s dst _
        · exact KeptBut.refl_any _ s
      have hk := (hk.flagged (flagsOf (op.result (s.readLoc8 dst) (s.readSrc8 src)))).moved i.length
      exact ⟨hk.2.2.2.2.2.1, by cases op <;> simp [AluOp.stores], hk, by simp⟩
    · refine ⟨_, rfl, .inl ?_⟩
      have hk : KeptBut (.word dst) s (if op.stores then s.writeLoc16 dst (op.result (s.readLoc16 dst) (s.readSrc16 src)) else s) := by
        split
        · exact writeLoc16_kept s dst _
        · exact KeptBut.refl_any _ s
      have hk := (hk.flagged (flagsOf (op.result (s.readLoc16 dst) (s.readSrc16 src)))).moved i.length
      exact ⟨hk.2.2.2.2.2.1, by cases op <;> simp [AluOp.stores], hk, by simp⟩
  | taken rel cond byte0 ho ha hl hm h =>
    rw [h]
    rcases branch_cases (cond s.flags) byte0 rel s with ⟨h1, h2, h3⟩ | ⟨h1, h2, h3⟩ | ⟨h1, h3⟩
    · exact ⟨_, h3, .inr ⟨rel, byte0, ho, h1 ▸ hm s.flags, .inr ⟨h2, rfl⟩⟩⟩
    · exact ⟨_, h3, .inr ⟨rel, byte0, ho, h1 ▸ hm s.flags, .inl ⟨h2, rfl⟩⟩⟩
    · exact ⟨_, h3, .inl ⟨rfl, by rw [hl]; rfl, (KeptBut.refl_any _ s).moved 2, fun _ => rfl⟩⟩
  | untaken rel ho ha hl hm h =>
    exact ⟨_, h s, .inl ⟨rfl, by rw [hl]; rfl, (KeptBut.refl_any _ s).moved 2, fun _ => rfl⟩⟩

/-- A write to a location inside Memory keeps the canonical form. -/
theorem wf_writeLoc8 {s : State} (l : Loc8) (v : Byte) (h : s.mem.wf s.code = true) : (s.writeLoc8 l v).mem.wf s.code = true := by
  cases l with
  | reg r => exact h
  | mem m => exact Memory.wf_writeByte v (by have := ea_lt s m; omega) h

/-- A write to a location inside Memory keeps the canonical form. -/
theorem wf_writeLoc16 {s : State} (l : Loc16) (v : Word) (h : s.mem.wf s.code = true) : (s.writeLoc16 l v).mem.wf s.code = true := by
  cases l with
  | reg r => exact h
  | sreg q => exact h
  | mem m =>
    have := ea_lt s m
    exact Memory.wf_writeByte (hiByte v) this (Memory.wf_writeByte (loByte v) (by omega) h)

/-- Every instruction keeps the canonical form of memory. -/
theorem exec_wf {i : Instr} {s t : State} (he : exec i s = .next t) (h : s.mem.wf s.code = true) : t.mem.wf s.code = true := by
  cases shape i with
  | mov roles ho ha hx =>
    rw [hx] at he
    rcases roles with ⟨dst, src⟩ | ⟨dst, src⟩ <;> cases he
    · exact wf_writeLoc8 dst _ h
    · exact wf_writeLoc16 dst _ h
  | alu op roles ho ha hx =>
    rw [hx] at he
    rcases roles with ⟨dst, src⟩ | ⟨dst, src⟩ <;> cases he <;> cases op
    · exact wf_writeLoc8 dst _ h
    · exact wf_writeLoc8 dst _ h
    · exact h
    · exact wf_writeLoc16 dst _ h
    · exact wf_writeLoc16 dst _ h
    · exact h
  | taken rel cond byte0 ho ha hl hm hx =>
    rw [hx] at he
    rcases branch_cases (cond s.flags) byte0 rel s with ⟨-, -, h3⟩ | ⟨-, -, h3⟩ | ⟨-, h3⟩ <;> rw [h3] at he <;> cases he <;> exact h
  | untaken rel ho ha hl hm hx => rw [hx] at he; cases he; exact h

/-- No instruction changes the inputs or the outputs. -/
theorem exec_inputs {i : Instr} {s t : State} (h : exec i s = .next t) :
    t.code = s.code ∧ t.mode = s.mode ∧ t.lines = s.lines ∧ t.changes = s.changes := by
  obtain ⟨u, hu, hc⟩ := exec_cases i s
  rw [hu] at h; cases h
  rcases hc with ⟨-, -, ⟨-, -, -, hcode, hmode, -, hlines, hchanges⟩, -⟩ | ⟨rel, b, -, -, ⟨-, rfl⟩ | ⟨-, rfl⟩⟩
  · exact ⟨hcode, hmode, hlines, hchanges⟩
  · exact ⟨rfl, rfl, rfl, rfl⟩
  · exact ⟨rfl, rfl, rfl, rfl⟩

/-- R213: the only error an execution ends in. -/
theorem exec_status {i : Instr} {s t : State} (h : exec i s = .next t) :
    t.status = s.status ∨ ∃ c, t = s.raise .branchTargetNegative c ∧ c.ip = s.ip := by
  obtain ⟨u, hu, hc⟩ := exec_cases i s
  rw [hu] at h; cases h
  rcases hc with ⟨hst, -⟩ | ⟨rel, b, -, -, ⟨-, rfl⟩ | ⟨-, rfl⟩⟩
  · exact .inl hst
  · exact .inl rfl
  · exact .inr ⟨_, rfl, rfl⟩

/-! ### step -/

@[simp] theorem retireSimulated_status (s : State) (i : Instr) (t : State) : (s.retireSimulated i t).status = t.status := by
  unfold State.retireSimulated; split <;> rfl

/-- R103: the commit of an instruction that completed. -/
theorem retireSimulated_running (s : State) (i : Instr) {t : State} (h : t.status = .running) : s.retireSimulated i t =
    { t with lines := t.lines ++ [render i ++ annotation (changesOf i s t)], changes := t.changes ++ [changesOf i s t] } := by
  simp [State.retireSimulated, h]

/-- R217: an execution that ended in an error commits nothing. -/
theorem retireSimulated_ended (s : State) (i : Instr) {t : State} (h : t.status ≠ .running) : s.retireSimulated i t = t := by
  simp [State.retireSimulated, h]

/-- R122: at most one register record, one `ip` record and one flags record. -/
theorem length_changesOf (i : Instr) (s t : State) : (changesOf i s t).length ≤ 3 := by
  have hr : (registerChange i s t).length ≤ 1 := by
    unfold registerChange
    split
    · unfold destChange
      split <;> first | (unfold reg16Change; split <;> simp) | (unfold sregChange; split <;> simp) | simp
    · simp
  have hi : (ipChange s t).length ≤ 1 := by unfold ipChange; split <;> simp
  have hf : (flagsChange s t).length ≤ 1 := by unfold flagsChange; split <;> simp
  simp only [changesOf, List.length_append]; omega

/-- R101: with no byte left the fetch finds the end of the run. -/
theorem fetch_exhausted {s : State} (h : s.code.length ≤ s.ip) : s.fetch = .exhausted := by
  unfold State.fetch; rw [List.drop_eq_nil_of_le h]; rfl

/-- R103: a fetch that decodes. -/
theorem fetch_decoded {s : State} {i : Instr} {rest : List Byte} (h : decode (s.code.drop s.ip) = .ok (i, rest)) :
    s.fetch = .decoded i := by
  unfold State.fetch; rw [h]

/-- R103, R107: a `Simulate` step that fetches `i`. -/
theorem step_simulate {s t : State} {i : Instr} (hr : s.status = .running) (hm : s.mode = .simulate) (hf : s.fetch = .decoded i)
    (hx : exec i s = .next t) : step s = .next (s.retireSimulated i t) := by
  unfold step; rw [hr]; simp only [hf, hm, hx]; rfl

/-- R103, R106: a `Disassemble` step that fetches `i`. -/
theorem step_disassemble {s : State} {i : Instr} (hr : s.status = .running) (hm : s.mode = .disassemble) (hf : s.fetch = .decoded i) :
    step s = .next (s.retireDisassembled i) := by
  unfold step; rw [hr]; simp only [hf, hm]

/-- R103: a step whose fetch ends the run. -/
theorem step_failed {s : State} {k : ErrorKind} {c : Context} (hr : s.status = .running) (hf : s.fetch = .failed k c) :
    step s = .next (s.raise k c) := by
  unfold step; rw [hr]; simp only [hf]


/-- R101, R103: what a fetch finds, guards included. -/
theorem fetch_cases (s : State) :
    (s.code.length ≤ s.ip ∧ s.fetch = .exhausted) ∨
    (∃ b0 b1, s.code[s.ip]? = some b0 ∧
      s.fetch = .failed .unsupportedEncoding { ip := s.ip, byte0 := b0, byte1 := b1 }) ∨
    (∃ b0 needed available, s.code[s.ip]? = some b0 ∧ s.fetch =
      .failed .truncatedInstruction { ip := s.ip, byte0 := b0, needed := some needed, available := some available }) ∨
    (∃ i rest, decode (s.code.drop s.ip) = .ok (i, rest) ∧ s.ip < s.code.length ∧ s.fetch = .decoded i) := by
  unfold State.fetch
  rcases hd : s.code.drop s.ip with _ | ⟨b0, tl⟩
  · exact .inl ⟨by simpa using hd, rfl⟩
  · have hlt : s.ip < s.code.length := by
      by_contra hge; rw [List.drop_eq_nil_of_le (by omega)] at hd; cases hd
    have hb : s.code[s.ip]? = some b0 := by
      have := congrArg (fun l => l[0]?) hd; simpa using this
    right
    simp only [decode]
    split
    · next h =>
      split at h
      · cases h
      · split at h
        · cases h
        · split at h
          · cases h
          · cases h; exact .inr (.inr ⟨_, _, rfl, hlt, rfl⟩)
    · next h =>
      split at h
      · cases h
      · split at h
        · next h2 =>
          cases h; unfold resolveLength at h2
          split at h2
          · cases h2
          · dsimp only at h2; split at h2 <;> cases h2
        · split at h
          · next h2 => cases h; unfold resolveInstr at h2; split at h2 <;> cases h2
          · cases h
    · next h =>
      split at h
      · cases h; exact .inl ⟨_, _, hb, rfl⟩
      · split at h
        · next h2 =>
          cases h; unfold resolveLength at h2
          split at h2
          · cases h2
          · dsimp only at h2; split at h2 <;> cases h2
        · next n h1 =>
          split at h
          · next h2 =>
            cases h; unfold resolveInstr at h2
            split at h2
            · cases h2
              obtain ⟨-, hn, -⟩ := resolveLength_ok.1 h1
              refine .inl ⟨b0, some (byteAt ((b0 :: tl).take n) 1), hb, ?_⟩
              rw [hn, Nat.add_comm]; rfl
            · cases h2
          · cases h
    · next h =>
      split at h
      · cases h
      · split at h
        · next h2 =>
          cases h; unfold resolveLength at h2
          split at h2
          · cases h2; exact .inr (.inl ⟨_, _, _, hb, rfl⟩)
          · dsimp only at h2; split at h2
            · cases h2; exact .inr (.inl ⟨_, _, _, hb, rfl⟩)
            · cases h2
        · split at h
          · next h2 => cases h; unfold resolveInstr at h2; split at h2 <;> cases h2
          · cases h

/-- R103: everything a step that answers a next state can have done, guards included. -/
theorem step_cases {s t : State} (h : step s = .next t) : s.status = .running ∧
    ((s.fetch = .exhausted ∧ t = s.exhaust) ∨
     (∃ k c, s.fetch = .failed k c ∧ t = s.raise k c) ∨
     (∃ i, s.fetch = .decoded i ∧ s.mode = .disassemble ∧ t = s.retireDisassembled i) ∨
     (∃ i u, s.fetch = .decoded i ∧ s.mode = .simulate ∧ exec i s = .next u ∧ t = s.retireSimulated i u)) := by
  unfold step at h
  cases hs : s.status with
  | exhausted => simp [hs] at h
  | error k c => simp [hs] at h
  | running =>
    refine ⟨rfl, ?_⟩
    simp only [hs] at h
    cases hf : s.fetch with
    | exhausted => simp only [hf] at h; cases h; exact .inl ⟨rfl, rfl⟩
    | failed k c => simp only [hf] at h; cases h; exact .inr (.inl ⟨k, c, rfl, rfl⟩)
    | decoded i =>
      simp only [hf] at h
      cases hm : s.mode with
      | disassemble => simp only [hm] at h; cases h; exact .inr (.inr (.inl ⟨i, rfl, rfl, rfl⟩))
      | simulate =>
        simp only [hm] at h
        obtain ⟨u, hu, -⟩ := exec_cases i s
        rw [hu] at h; cases h
        exact .inr (.inr (.inr ⟨i, u, rfl, rfl, hu, rfl⟩))

end Sys2Proof.Machine
end

