-- ==== Sys2Proof/Tests/Slice0.lean ====
section
/-! SUPPORT. The model's own tests: well-formedness, decoding and encoding of words written out from the spec's encodings, one step of
every instruction against the vectors of spec/95_test_vectors.md, and a witness for the hypotheses of every obligation. -/

namespace Sys2Proof.Tests

open Sys2Proof.Machine

/-! ### Well-formedness: the one check, in every place an r/m operand stands -/

theorem test_wf_refuses_plain_bp : (MemRef.plain .bp).wf = false ∧ (MemRef.plain .bx).wf = true ∧ (MemRef.disp8 .bp 0).wf = true := by
  decide

theorem test_wf_refuses_plain_bp_rmReg : (Instr.movRmReg .toReg (.word (.mem (.plain .bp)) .ax)).wf = false ∧
    (Instr.addRmReg .toReg (.byte (.mem (.plain .bp)) .al)).wf = false ∧
    (Instr.subRmReg .fromReg (.word (.mem (.plain .bp)) .ax)).wf = false ∧
    (Instr.cmpRmReg .fromReg (.byte (.mem (.plain .bp)) .al)).wf = false := by decide

theorem test_wf_refuses_plain_bp_imm : (Instr.movImmRm 0 (.byte (.mem (.plain .bp)) 1)).wf = false ∧
    (Instr.movImmRm 0 (.word (.mem (.plain .bp)) 1)).wf = false ∧
    (Instr.addImmRm (.byte false (.mem (.plain .bp)) 1)).wf = false ∧
    (Instr.subImmRm (.word (.mem (.plain .bp)) 1)).wf = false ∧
    (Instr.cmpImmRm (.wordSx (.mem (.plain .bp)) 1)).wf = false := by decide

theorem test_wf_refuses_plain_bp_sreg : (Instr.movRmSreg 0 .ds (.mem (.plain .bp))).wf = false ∧
    (Instr.movSregRm 0 .ds (.mem (.plain .bp))).wf = false := by decide

/-! ### Decoding, from the words of spec/95_test_vectors.md section 2; the opcode bits are those of spec/30_encoding.md R68 -/

/-- V2.1. -/
theorem test_decode_movRmReg : decode [0x89, 0xD8] = .ok (.movRmReg .fromReg (.word (.reg .ax) .bx), []) := by decide

/-- V2.10. -/
theorem test_decode_movRmReg_mem : decode [0x88, 0x6E, 0x00] = .ok (.movRmReg .fromReg (.byte (.mem (.disp8 .bp 0)) .ch), []) := by decide

/-- V2.15. -/
theorem test_decode_movImmReg : decode [0xBC, 0x00, 0x80] = .ok (.movImmReg (.word .sp 0x8000), []) := by decide

/-- V2.22: the ignored field is 111. -/
theorem test_decode_movImmRm : decode [0xC6, 0x78, 0xFF, 0x10] = .ok (.movImmRm 7 (.byte (.mem (.disp8 .bxSi 0xFF)) 16), []) := by decide

/-- V2.23. -/
theorem test_decode_movMemAcc : decode [0xA1, 0xFB, 0x09] = .ok (.movMemAcc .word 2555, []) := by decide

/-- V2.26. -/
theorem test_decode_movAccMem : decode [0xA2, 0xFF, 0xFF] = .ok (.movAccMem .byte 65535, []) := by decide

/-- V2.29: the ignored bit is 1. -/
theorem test_decode_movRmSreg : decode [0x8E, 0x3F] = .ok (.movRmSreg 1 .ds (.mem (.plain .bx)), []) := by decide

/-- V2.31. -/
theorem test_decode_movSregRm : decode [0x8C, 0x5E, 0x04] = .ok (.movSregRm 0 .ds (.mem (.disp8 .bp 4)), []) := by decide

/-- V2.36. -/
theorem test_decode_addRmReg : decode [0x02, 0x00] = .ok (.addRmReg .toReg (.byte (.mem (.plain .bxSi)) .al), []) := by decide

/-- V2.42. -/
theorem test_decode_addImmRm : decode [0x81, 0x06, 0xE8, 0x03, 0x10, 0x27] = .ok (.addImmRm (.word (.mem (.direct 1000)) 10000), []) := by decide

/-- V2.43. -/
theorem test_decode_addImmRm_82 : decode [0x82, 0xC0, 0x80] = .ok (.addImmRm (.byte true (.reg .al) 0x80), []) := by decide

/-- V2.46. -/
theorem test_decode_addImmAcc : decode [0x05, 0xE8, 0x03] = .ok (.addImmAcc (.word 1000), []) := by decide

/-- V2.50. -/
theorem test_decode_subRmReg : decode [0x2B, 0x1E, 0x00, 0x10] = .ok (.subRmReg .toReg (.word (.mem (.direct 4096)) .bx), []) := by decide

/-- V2.51. -/
theorem test_decode_subImmRm : decode [0x83, 0xE9, 0x01] = .ok (.subImmRm (.wordSx (.reg .cx) 1), []) := by decide

/-- V2.54. -/
theorem test_decode_subImmAcc : decode [0x2C, 0x05] = .ok (.subImmAcc (.byte 5), []) := by decide

/-- V2.58. -/
theorem test_decode_cmpRmReg : decode [0x3B, 0x46, 0xFE] = .ok (.cmpRmReg .toReg (.word (.mem (.disp8 .bp 0xFE)) .ax), []) := by decide

/-- V2.60. -/
theorem test_decode_cmpImmRm : decode [0x80, 0x3E, 0x05, 0x00, 0x01] = .ok (.cmpImmRm (.byte false (.mem (.direct 5)) 1), []) := by decide

/-- V2.63. -/
theorem test_decode_cmpImmAcc : decode [0x3D, 0x34, 0x12] = .ok (.cmpImmAcc (.word 0x1234), []) := by decide

/-- Section 2, V2.64 to V2.79: the sixteen short jumps, each by its own byte. -/
theorem test_decode_jumps : (List.range 16).map (fun k => decode [BitVec.ofNat 8 (0x70 + k), 0x81]) =
    ([.jo 0x81, .jno 0x81, .jb 0x81, .jnb 0x81, .je 0x81, .jne 0x81, .jbe 0x81, .ja 0x81, .js 0x81, .jns 0x81, .jp 0x81, .jnp 0x81, .jl 0x81, .jnl 0x81, .jle 0x81, .jg 0x81] : List Instr).map
      (fun i => .ok (i, [])) := by decide

/-- Section 2, V2.80 to V2.83. -/
theorem test_decode_loops : (List.range 4).map (fun k => decode [BitVec.ofNat 8 (0xE0 + k), 0xFA]) =
    ([.loopnz 0xFA, .loopz 0xFA, .loop 0xFA, .jcxz 0xFA] : List Instr).map
      (fun i => .ok (i, [])) := by decide

/-- The length matrix of section 2.1: the five columns of the rows 88, 8E, 80 to 83, C6 and C7. -/
theorem test_length_matrix : [0x88, 0x8E, 0x80, 0x81, 0x82, 0x83, 0xC6, 0xC7].map (fun b0 =>
    [0x07, 0x06, 0x47, 0x87, 0xC7].map (fun b1 => match decode [b0, b1, 0, 0, 0, 0] with
      | .ok (i, _) => i.length
      | .error _ => 0)) =
    [[2, 4, 3, 4, 2], [2, 4, 3, 4, 2], [3, 5, 4, 5, 3], [4, 6, 5, 6, 4], [3, 5, 4, 5, 3], [3, 5, 4, 5, 3], [3, 5, 4, 5, 3],
      [4, 6, 5, 6, 4]] := by decide

/-- Section 6: V6.1, V6.6, V6.11, V6.12, V6.14, V6.16. -/
theorem test_decode_errors :
    decode [0x90] = .error (.unsupported 0x90 none) ∧ decode [0x80, 0xC8, 0x05] = .error (.unsupported 0x80 (some 0xC8)) ∧
    decode [0x80, 0xC8] = .error (.truncated 0x80 3 2) ∧ decode [0x89] = .error (.truncated 0x89 2 1) ∧
    decode [0x81, 0x06, 0xE8] = .error (.truncated 0x81 6 3) ∧ decode [0x74] = .error (.truncated 0x74 2 1) := by decide

/-- The encoder writes the words of V2.19, V2.22, V2.44, V2.31, V2.16 and V2.69. -/
theorem test_encode :
    encode (.movImmRm 0 (.word (.mem (.disp16 .di 901)) 347)) = [0xC7, 0x85, 0x85, 0x03, 0x5B, 0x01] ∧
    encode (.movImmRm 7 (.byte (.mem (.disp8 .bxSi 0xFF)) 16)) = [0xC6, 0x78, 0xFF, 0x10] ∧
    encode (.addImmRm (.wordSx (.mem (.disp16 .bx 16)) 1)) = [0x83, 0x87, 0x10, 0x00, 0x01] ∧
    encode (.movSregRm 0 .ds (.mem (.disp8 .bp 4))) = [0x8C, 0x5E, 0x04] ∧
    encode (.movImmReg (.byte .ah 127)) = [0xB4, 0x7F] ∧ encode (.jne 0xF8) = [0x75, 0xF8] := by decide

/-- spec/opcode_table.json: the three two-byte rows, numbered byte0 << 8 | byte1, and one-byte rows with zeros after them. -/
theorem test_decodeTableWord :
    decodeTableWord 16 0x8000 = some (.addImmRm (.byte false (.mem (.plain .bxSi)) 0)) ∧
    decodeTableWord 16 0x8028 = some (.subImmRm (.byte false (.mem (.plain .bxSi)) 0)) ∧
    decodeTableWord 16 0x8038 = some (.cmpImmRm (.byte false (.mem (.plain .bxSi)) 0)) ∧
    decodeTableWord 8 0x88 = some (.movRmReg .fromReg (.byte (.mem (.plain .bxSi)) .al)) ∧
    decodeTableWord 8 0xE3 = some (.jcxz 0) ∧ decodeTableWord 8 0x90 = none := by decide

/-! ### One step of every instruction, against the Simulate vectors -/

/-- A start state of a vector: the image, in `Simulate` mode from reset. -/
def sim (code : List Byte) : State := State.start code .simulate

/-- The state one step later. -/
def after (s : State) : State :=
  match step s with
  | .next t => t
  | .fault _ => s
  | .refused _ => s

/-- The registers of a vector's start state, the ones not named zero. -/
def regs (ax bx cx : Word) : RegFile := { RegFile.reset with ax := ax, bx := bx, cx := cx }

/-- V3.2. -/
theorem test_step_movRmReg :
    let t := after { sim [0x88, 0xE5] with regs := regs 0xAB00 0 0x1111 }
    t.lines = ["mov ch, ah ; cx:0x1111->0xab11 ip:0x0->0x2"] ∧ t.regs = regs 0xAB00 0 0xAB11 ∧ t.ip = 2 := by decide

/-- V3.15. -/
theorem test_step_movRmReg_source_is_base :
    let t := after { sim [0x8B, 0x1F] with regs := regs 0 4 0, mem := [(4, 0x22), (5, 0x11)] }
    t.regs = regs 0 0x1122 0 ∧ t.mem = [(4, 0x22), (5, 0x11)] := by decide

/-- V3.6. -/
theorem test_step_movImmReg :
    let t := after { sim [0xB8, 0x00, 0x00] with regs := regs 7 0 0, flags := ⟨true, true⟩ }
    t.lines = ["mov ax, 0 ; ax:0x7->0x0 ip:0x0->0x3"] ∧ t.regs = regs 0 0 0 ∧ t.flags = ⟨true, true⟩ := by decide

/-- V3.4. -/
theorem test_step_movImmReg_high :
    let t := after { sim [0xB4, 0x7F] with regs := regs 0xFF 0 0 }
    t.lines = ["mov ah, 127 ; ax:0xff->0x7fff ip:0x0->0x2"] ∧ t.regs = regs 0x7FFF 0 0 := by decide

/-- V3.18. -/
theorem test_step_movImmRm :
    let t := after { sim [0xC6, 0x47, 0xFF, 0x55] with regs := regs 0 0x10 0, mem := [(15, 0x99)] }
    t.lines = ["mov [bx - 1], byte 85 ; ip:0x0->0x4"] ∧ t.mem = [(15, 0x55)] := by decide

/-- V3.8. -/
theorem test_step_movMemAcc :
    let t := after { sim [0xA1, 0xFB, 0x09] with mem := [(0x9FB, 0x34), (0x9FC, 0x12)] }
    t.lines = ["mov ax, [2555] ; ax:0x0->0x1234 ip:0x0->0x3"] ∧ t.regs = regs 0x1234 0 0 := by decide

/-- V3.9: the high byte at 0x10000. -/
theorem test_step_movAccMem :
    let t := after { sim [0xA3, 0xFF, 0xFF] with regs := regs 0xBEEF 0 0 }
    t.lines = ["mov [65535], ax ; ip:0x0->0x3"] ∧ t.mem = [(0xFFFF, 0xEF), (0x10000, 0xBE)] := by decide

/-- V3.10. -/
theorem test_step_movAccMem_byte :
    let t := after { sim [0xA2, 0x00, 0x01] with regs := regs 0xBEEF 0 0 }
    t.mem = [(0x100, 0xEF)] := by decide

/-- V3.12. -/
theorem test_step_movRmSreg :
    let t := after { sim [0x8E, 0xD8] with regs := regs 0x1234 0 0 }
    t.lines = ["mov ds, ax ; ds:0x0->0x1234 ip:0x0->0x2"] ∧ t.segs = ⟨0, 0, 0, 0x1234⟩ := by decide

/-- V3.13. -/
theorem test_step_movSregRm :
    let t := after { sim [0x8C, 0xDB] with segs := ⟨0, 0, 0, 0x0F0F⟩ }
    t.lines = ["mov bx, ds ; bx:0x0->0xf0f ip:0x0->0x2"] ∧ t.regs = regs 0 0x0F0F 0 := by decide

/-- V4.3. -/
theorem test_step_addRmReg :
    let t := after { sim [0x00, 0xE0] with regs := regs 0x180 0 0 }
    t.lines = ["add al, ah ; ax:0x180->0x181 ip:0x0->0x2 flags:->S"] ∧ t.flags = ⟨false, true⟩ := by decide

/-- V4.26. -/
theorem test_step_addRmReg_same :
    let t := after { sim [0x01, 0xC0] with regs := regs 0x8000 0 0 }
    t.regs = regs 0 0 0 ∧ t.flags = ⟨true, false⟩ := by decide

/-- V4.7. -/
theorem test_step_addImmRm :
    let t := after { sim [0x83, 0x07, 0xFD] with regs := regs 0 0x100 0, mem := [(0x100, 2)] }
    t.lines = ["add [bx], word -3 ; ip:0x0->0x3 flags:->S"] ∧ t.mem = [(0x100, 0xFF), (0x101, 0xFF)] := by decide

/-- V4.8. -/
theorem test_step_addImmRm_82 :
    let t := after { sim [0x82, 0xC0, 0x80] with regs := regs 0x80 0 0 }
    t.regs = regs 0 0 0 ∧ t.flags = ⟨true, false⟩ := by decide

/-- V4.4. -/
theorem test_step_addImmAcc :
    let t := after { sim [0x04, 0x09] with regs := regs 0x12F7 0 0 }
    t.lines = ["add al, 9 ; ax:0x12f7->0x1200 ip:0x0->0x2 flags:->Z"] ∧ t.flags = ⟨true, false⟩ := by decide

/-- V4.23. -/
theorem test_step_addImmAcc_clears :
    let t := after { sim [0x05, 0x01, 0x00] with regs := regs 1 0 0, flags := ⟨true, true⟩ }
    t.lines = ["add ax, 1 ; ax:0x1->0x2 ip:0x0->0x3 flags:ZS->"] ∧ t.flags = ⟨false, false⟩ := by decide

/-- V4.17. -/
theorem test_step_subRmReg :
    let t := after { sim [0x2A, 0x4F, 0x02] with regs := regs 0 0x10 5, mem := [(0x12, 6)] }
    t.lines = ["sub cl, [bx + 2] ; cx:0x5->0xff ip:0x0->0x3 flags:->S"] ∧ t.regs = regs 0 0x10 0xFF := by decide

/-- V4.15: a byte written back to its reset value is not listed. -/
theorem test_step_subImmRm :
    let t := after { sim [0x80, 0x2F, 0x01] with regs := regs 0 0x300 0, mem := [(0x300, 1)] }
    t.lines = ["sub [bx], byte 1 ; ip:0x0->0x3 flags:->Z"] ∧ t.readByte 0x300 = 0 ∧ t.mem = [] := by decide

/-- V4.13. -/
theorem test_step_subImmAcc :
    let t := after { sim [0x2C, 0x05] with regs := regs 0x1203 0 0 }
    t.lines = ["sub al, 5 ; ax:0x1203->0x12fe ip:0x0->0x2 flags:->S"] ∧ t.regs = regs 0x12FE 0 0 := by decide

/-- V4.25. -/
theorem test_step_cmpRmReg :
    let t := after { sim [0x3A, 0xC4] with regs := regs 0x0201 0 0 }
    t.lines = ["cmp al, ah ; ip:0x0->0x2 flags:->S"] ∧ t.regs = regs 0x0201 0 0 := by decide

/-- V4.22. -/
theorem test_step_cmpImmRm :
    let t := after { sim [0x80, 0x3E, 0x05, 0x00, 0x01] with mem := [(5, 1)] }
    t.lines = ["cmp [5], byte 1 ; ip:0x0->0x5 flags:->Z"] ∧ t.mem = [(5, 1)] := by decide

/-- V4.24. -/
theorem test_step_cmpImmAcc :
    let t := after { sim [0x3D, 0x00, 0x00] with regs := regs 0x8000 0 0, flags := ⟨true, false⟩ }
    t.lines = ["cmp ax, 0 ; ip:0x0->0x3 flags:Z->S"] ∧ t.regs = regs 0x8000 0 0 := by decide

/-- The next `ip` of `op 04` under the four flag states ZF SF = 00, 10, 01, 11, with cx = 5 (spec/95_test_vectors.md section 5.1). -/
def nextIps (b0 : Byte) : List (Nat × Word) :=
  [⟨false, false⟩, ⟨true, false⟩, ⟨false, true⟩, ⟨true, true⟩].map (fun f =>
    let t := after { sim [b0, 0x04] with flags := f, regs := regs 0 0 5 }
    (t.ip, t.regs.cx))

/-- Section 5.1: the four jumps that are ever taken. -/
theorem test_step_taken_jumps : [0x74, 0x75, 0x78, 0x79].map nextIps =
    [[2, 6, 2, 6], [6, 2, 6, 2], [2, 2, 6, 6], [6, 6, 2, 2]].map (fun l => l.map (fun n => (n, 5))) := by decide

/-- Section 5.1: the other twelve jumps. -/
theorem test_step_untaken_jumps : [0x70, 0x71, 0x72, 0x73, 0x76, 0x77, 0x7A, 0x7B, 0x7C, 0x7D, 0x7E, 0x7F].map nextIps =
    List.replicate 12 (List.replicate 4 (2, 5)) := by decide

/-- Section 5.1: the loops and JCXZ. -/
theorem test_step_untaken_loops : [0xE0, 0xE1, 0xE2, 0xE3].map nextIps = List.replicate 4 (List.replicate 4 (2, 5)) := by decide

/-- W5: a taken jump to itself has a line without annotation. -/
theorem test_step_self_jump :
    let t := after { sim [0x74, 0xFE] with flags := ⟨true, false⟩ }
    t.lines = ["je -2"] ∧ t.ip = 0 ∧ t.status = .running := by decide

/-- V5.9: a negative target. -/
theorem test_step_negative_target :
    let t := after (sim [0x79, 0xFD])
    t.status = .error .branchTargetNegative { ip := 0, byte0 := 0x79, rel := some (-3) } ∧ t.lines = [] ∧ t.ip = 0 := by decide

/-- V5.9: the same image in `Disassemble` mode. -/
theorem test_step_disassemble :
    let t := after (State.start [0x79, 0xFD] .disassemble)
    t.status = .running ∧ t.lines = ["jns -3"] ∧ t.changes = [] ∧ t.ip = 2 := by decide

/-- V6.11, V6.17: truncation, before the sub-opcode. -/
theorem test_step_truncated :
    (after (sim [0x80, 0xC8])).status =
      .error .truncatedInstruction { ip := 0, byte0 := 0x80, needed := some 3, available := some 2 } ∧
    (after (sim [0xC7, 0x85, 0x85, 0x03, 0x5B])).status =
      .error .truncatedInstruction { ip := 0, byte0 := 0xC7, needed := some 6, available := some 5 } := by decide

/-- V6.7 to V6.10: the other unassigned sub-opcodes. -/
theorem test_step_unsupported : [[0x83, 0xD0, 0x05], [0x83, 0xD8, 0x05], [0x81, 0xE0, 0x00, 0x01], [0x83, 0xF0, 0x05]].map
      (fun c => (after (sim c)).status) =
    [(0x83, 0xD0), (0x83, 0xD8), (0x81, 0xE0), (0x83, 0xF0)].map
      (fun p => .error .unsupportedEncoding { ip := 0, byte0 := p.1, byte1 := some p.2 }) := by decide

/-- P5: the second instruction is fetched from `CODE`, whatever was stored over it. -/
theorem test_step_store_into_code :
    let t := after { sim [0xC6, 0x06, 0x05, 0x00, 0x90, 0xB0, 0x01] with ip := 5, mem := [(5, 0x90)] }
    t.lines = ["mov al, 1 ; ax:0x0->0x1 ip:0x5->0x7"] ∧ t.readByte 5 = 0x90 := by decide

/-- R101, R127: an empty image is exhausted at its first step. -/
theorem test_step_empty : after State.reset = State.reset.exhaust ∧ (after (State.start [] .disassemble)).final =
    some (.disassemble 0 .exhausted) := by decide

/-- Every row of spec/opcode_table.json runs as the first instruction after reset, fetched by the next step. -/
theorem test_step_table_words : ∀ p ∈ [(8, 0x88), (8, 0x8E), (8, 0x8C), (8, 0xB0), (8, 0xC6), (8, 0xA0), (8, 0xA2), (8, 0x00), (16, 0x8000),
      (8, 0x04), (8, 0x28), (16, 0x8028), (8, 0x2C), (8, 0x38), (16, 0x8038), (8, 0x3C), (8, 0x70), (8, 0x71), (8, 0x72), (8, 0x73),
      (8, 0x74), (8, 0x75), (8, 0x76), (8, 0x77), (8, 0x78), (8, 0x79), (8, 0x7A), (8, 0x7B), (8, 0x7C), (8, 0x7D), (8, 0x7E), (8, 0x7F),
      (8, 0xE0), (8, 0xE1), (8, 0xE2), (8, 0xE3)],
    ∃ i ∈ (decodeTableWord p.1 p.2).toList, (after (State.reset.withFetchWord p.1 p.2)).ip = i.length ∧
      (after (State.reset.withFetchWord p.1 p.2)).status = .running := by decide

/-- Section 2: lines of the corner rows V2.5, V2.11, V2.12, V2.21, V2.38, V2.43 and V2.75. -/
theorem test_render :
    render (.movRmReg .toReg (.word (.mem (.disp8 .bp 0)) .dx)) = "mov dx, [bp]" ∧
    render (.movRmReg .toReg (.word (.mem (.disp8 .bp 0x80)) .ax)) = "mov ax, [bp - 128]" ∧
    render (.movRmReg .toReg (.word (.mem (.disp16 .bp 0x8000)) .ax)) = "mov ax, [bp - 32768]" ∧
    render (.movImmRm 0 (.word (.mem (.direct 5)) 0xFFFF)) = "mov [5], word -1" ∧
    render (.addImmRm (.wordSx (.reg .ax) 0xFB)) = "add ax, -5" ∧
    render (.addImmRm (.byte true (.reg .al) 0x80)) = "add al, -128" ∧ render (.jnp 0x81) = "jnp -127" := by decide

/-! ### Witnesses: the hypotheses of every obligation are met together -/

/-- An instruction with a displacement and an immediate, and its encoding. -/
theorem witness_EncodedInstructionDecodesToItself :
    (Instr.movImmRm 5 (.word (.mem (.disp16 .bpDi 0x8000)) 0xFFFF)).wf = true := by decide

/-- Bytes with something after the instruction. -/
theorem witness_DecodedBytesAreTheEncoding : decode [0x8E, 0x3F, 0x90] = .ok (.movRmSreg 1 .ds (.mem (.plain .bx)), [0x90]) := by decide

/-- Two decodes with one first byte whose second bytes agree in `mod` and `rm` only, and two of a class that does not need the second
byte. -/
theorem witness_LengthIsReadFromTheFirstBytes :
    (∃ i j, decode (0x8B :: 0x46 :: [0x80]) = .ok (i, []) ∧ decode (0x8B :: 0x7E :: [0x01, 0x90]) = .ok (j, [0x90])) ∧
    (∃ row, classify 0x8B = some row ∧ row.cls.needsModRm = true) ∧ modField 0x46 = modField 0x7E ∧ rmField 0x46 = rmField 0x7E ∧
    (∃ i j, decode (0xB8 :: 0xFF :: [0x00]) = .ok (i, []) ∧ decode (0xB8 :: 0x00 :: [0x80, 0x00]) = .ok (j, [0x00])) ∧
    (∃ row, classify 0xB8 = some row ∧ row.cls.needsModRm = false) :=
  ⟨⟨_, _, rfl, rfl⟩, ⟨_, rfl, rfl⟩, by decide, by decide, ⟨_, _, rfl, rfl⟩, ⟨_, rfl, rfl⟩⟩

/-- The shortest and the longest class. -/
theorem witness_LengthByClass :
    (∃ i row, decode (0x70 :: 0x05 :: []) = .ok (i, []) ∧ classify 0x70 = some row) ∧
    (∃ i row, decode (0x81 :: 0x06 :: [0xE8, 0x03, 0x10, 0x27]) = .ok (i, []) ∧ classify 0x81 = some row) :=
  ⟨⟨_, _, rfl, rfl⟩, ⟨_, _, rfl, rfl⟩⟩

theorem witness_LengthsAreTwoToSix : ∃ i, decode [0x89, 0x86, 0xFF, 0x7F, 0x90] = .ok (i, [0x90]) := ⟨_, rfl⟩

theorem witness_EncodingRowsAreDisjoint : ∃ r ∈ encodingTable, ∃ q ∈ encodingTable, r.hits 0x8B = true ∧ q.hits 0x8B = true := by decide

/-- All four sub-opcode cases, at both ends of 80 to 83; a truncated member of the group; both sides outside it. -/
theorem witness_SubOpcodeSelectsTheKind :
    (0x80 ≤ (0x80 : Byte).toNat ∧ (0x83 : Byte).toNat ≤ 0x83) ∧
    (lengthOf .immToRegMemAlu 0x80 0xC0 ≤ [0x05].length + 2 ∧ ((0xC0 : Byte) >>> 3) &&& 7#8 = 0b000#8) ∧
    (lengthOf .immToRegMemAlu 0x83 0xE8 ≤ [0x05].length + 2 ∧ ((0xE8 : Byte) >>> 3) &&& 7#8 = 0b101#8) ∧
    (lengthOf .immToRegMemAlu 0x83 0xF8 ≤ [0x05].length + 2 ∧ ((0xF8 : Byte) >>> 3) &&& 7#8 = 0b111#8) ∧
    (lengthOf .immToRegMemAlu 0x80 0xF0 ≤ [0x05].length + 2 ∧ ((0xF0 : Byte) >>> 3) &&& 7#8 = 0b110#8) ∧
    ([0x05].length + 2 < lengthOf .immToRegMemAlu 0x81 0xC8) ∧
    (∃ i j, decode (0x7F :: [0x00]) = .ok (i, []) ∧ decode (0x7F :: [0xFF, 0x90]) = .ok (j, [0x90])) ∧
    (∃ i j, decode (0x88 :: [0xC0]) = .ok (i, []) ∧ decode (0x88 :: [0x46, 0x00]) = .ok (j, [])) :=
  ⟨by decide, by decide, by decide, by decide, by decide, by decide, ⟨_, _, rfl, rfl⟩, ⟨_, _, rfl, rfl⟩⟩

/-- `ip` at the end of the image, and the last byte before it. -/
theorem witness_DecoderIsTotal :
    (∃ s : State, s.code.length ≤ s.ip ∧ s.ip ≠ 0) ∧ (∃ s : State, s.ip + 1 = s.code.length) :=
  ⟨⟨{ sim [0x70, 0x00] with ip := 2 }, by decide⟩, ⟨{ sim [0x70, 0x00] with ip := 1 }, by decide⟩⟩

theorem witness_EightBitViewsAliasTheirParent :
    ((sim []).setReg16 .ax 0x1234).reg16 .ax = 0x1234 ∧ Reg8.ah ≠ .al ∧ Reg16.sp ≠ Reg8.ah.parent := by decide

theorem witness_MemoryWritesChangeOnlyTheirBytes : (0x10002 : Nat) ≠ 0x10000 ∧ (0x10002 : Nat) ≠ 0x10000 + 1 := by decide

/-- The highest address any instruction stores to. -/
theorem witness_WordAtTheTopOfTheWindow : 0x10000 ∈ (Dest.word (.mem (.direct 0xFFFF))).addresses (sim []) := by decide

theorem witness_FlagsBelongToTheAluFamily :
    isAlu (Instr.cmpImmAcc (.byte 0)).kind = true ∧ isAlu (Instr.jcxz 0).kind = false ∧
    (∃ t, exec (.jcxz 0) (sim []) = .next t) := ⟨by decide, by decide, _, rfl⟩

/-- A never taken jump; a jump not taken; a jump taken to target 0, the least that is not negative. -/
theorem witness_ShortJumpsMoveTheInstructionPointer :
    Instr.jcxz 0x80 ∈ untakenJumps 0x80 ∧
    (.je 0x80, false, 0x74#8) ∈ takenJumps 0x80 (sim []).flags ∧
    (.jns 0xFE, true, 0x79#8) ∈ takenJumps 0xFE (sim []).flags ∧ ((sim []).ip : Int) + 2 + (0xFE : Byte).toInt = 0 := by decide

/-- The nearest negative target, -1 (V5.9). -/
theorem witness_NegativeTargetEndsTheRun :
    (.jns 0xFD, true, 0x79#8) ∈ takenJumps 0xFD (sim [0x79, 0xFD]).flags ∧
    ((sim [0x79, 0xFD]).ip : Int) + 2 + (0xFD : Byte).toInt = -1 ∧ (sim [0x79, 0xFD]).status = .running ∧
    (sim [0x79, 0xFD]).mode = .simulate ∧ (sim [0x79, 0xFD]).fetch = .decoded (.jns 0xFD) := by decide

theorem witness_OnlyFourJumpsRedirectOrFail : (∃ t, exec (.loop 0xFE) (sim []) = .next t) ∧
    ∀ rel, Instr.loop 0xFE ≠ .je rel ∧ Instr.loop 0xFE ≠ .jne rel ∧ Instr.loop 0xFE ≠ .js rel ∧ Instr.loop 0xFE ≠ .jns rel :=
  ⟨⟨_, rfl⟩, by simp⟩

/-- The loops clause ranges over a list that holds each of the four. -/
theorem witness_OnlyFourJumps_loops : Instr.jcxz 0xFE ∈ [Instr.loopnz 0xFE, .loopz 0xFE, .loop 0xFE, .jcxz 0xFE] := by decide

theorem witness_SegmentRegistersTakeNoPart :
    (∀ g sr rm, Instr.movRmSreg 0 .cs (.reg .ax) ≠ .movSregRm g sr rm) ∧
    (∃ t, exec (.movRmSreg 0 .cs (.reg .ax)) (sim []) = .next t) := ⟨by simp, _, rfl⟩

/-- Both modes, and both ways an execution leaves the run status. -/
theorem witness_StepRunsTheDecodedInstruction :
    (∃ i rest t, decode ((sim [0x05, 0x01, 0x00, 0x90]).code.drop 0) = .ok (i, rest) ∧
      exec i (sim [0x05, 0x01, 0x00, 0x90]) = .next t ∧ t.status = .running) ∧
    (∃ i rest t, decode ((sim [0x79, 0xFD]).code.drop 0) = .ok (i, rest) ∧ exec i (sim [0x79, 0xFD]) = .next t ∧ t.status ≠ .running) ∧
    (State.start [0x79, 0xFD] .disassemble).mode = .disassemble ∧ (State.start [0x79, 0xFD] .disassemble).status = .running :=
  ⟨⟨_, _, _, rfl, rfl, rfl⟩, ⟨_, _, _, rfl, rfl, by decide⟩, rfl, rfl⟩

theorem witness_PlacedInstructionRuns :
    let s := { sim [0x90, 0x75, 0xF8, 0x90] with ip := 1 }
    s.code = [0x90] ++ encode (.jne 0xF8) ++ [0x90] ∧ s.ip = [0x90].length ∧ s.status = .running ∧ s.mode = .simulate ∧
      (Instr.jne 0xF8).wf = true := by decide

theorem witness_RunningStepNeverStops : (sim []).status = .running ∧ (sim []).exhaust.status = .exhausted ∧
    ((sim []).raise .unsupportedEncoding { ip := 0, byte0 := 0x90 }).status = .error .unsupportedEncoding { ip := 0, byte0 := 0x90 } := by
  decide

theorem witness_ExhaustionIsClean : (sim []).status = .running ∧ (sim []).code.length ≤ (sim []).ip ∧
    ∃ t, step (sim []) = .next t ∧ t.status = .exhausted := ⟨rfl, by decide, _, rfl, rfl⟩

theorem witness_StatusIsTerminal : (∃ t, step (sim [0x70, 0x00]) = .next t) ∧ (sim []).exhaust.status ≠ .running := ⟨⟨_, rfl⟩, by decide⟩

/-- A rejected first byte at each end of a range; each of the five unassigned sub-opcodes, on an image just long enough. -/
theorem witness_UnsupportedEncodingEndsTheRun :
    rejectedFirst 0x06 ∧ rejectedFirst 0xFF ∧ ¬ rejectedFirst 0x05 ∧
    (sim [0xFF, 0xC0]).status = .running ∧ (sim [0xFF, 0xC0]).code.drop (sim [0xFF, 0xC0]).ip = 0xFF :: [0xC0] ∧
    (sim [0x83, 0xF0, 0x05]).code.drop (sim [0x83, 0xF0, 0x05]).ip = 0x83 :: 0xF0 :: [0x05] ∧
    lengthOf .immToRegMemAlu 0x83 0xF0 = [0x05].length + 2 ∧
    (∀ b ∈ ([0xC8, 0xD0, 0xD8, 0xE0, 0xF0] : List Byte), ((b >>> 3) &&& 7#8) ∈ [0b001#8, 0b010#8, 0b011#8, 0b100#8, 0b110#8]) := by
  refine ⟨?_, ?_, ?_, by decide, by decide, by decide, by decide, by decide⟩ <;> unfold rejectedFirst <;> decide

/-- A lone ModRM first byte; an image one byte short; a lone first byte of a class without ModRM. -/
theorem witness_TruncationEndsTheRun :
    (∃ row, (sim [0x89]).status = .running ∧ (sim [0x89]).code.drop (sim [0x89]).ip = [0x89] ∧ classify 0x89 = some row ∧
      row.cls.needsModRm = true) ∧
    (∃ row, (sim [0x81, 0x06, 0xE8, 0x03, 0x10]).code.drop 0 = 0x81 :: 0x06 :: [0xE8, 0x03, 0x10] ∧ classify 0x81 = some row ∧
      [0xE8, 0x03, 0x10].length + 2 < lengthOf row.cls 0x81 0x06) ∧
    (∃ row, (sim [0x74]).code.drop (sim [0x74]).ip = [0x74] ∧ classify 0x74 = some row ∧ row.cls.needsModRm = false) :=
  ⟨⟨_, rfl, rfl, rfl, rfl⟩, ⟨_, rfl, rfl, by decide⟩, ⟨_, rfl, rfl, rfl⟩⟩

theorem witness_ErrorsArePrecise : ∃ t k c, step (sim [0x79, 0xFD]) = .next t ∧ t.status = .error k c := ⟨_, _, _, rfl, rfl⟩

theorem witness_InvalidOperandCombinationIsNeverRaised : ∃ t, step (sim [0x90]) = .next t := ⟨_, rfl⟩

theorem witness_DisassembleStepFallsThrough :
    (State.start [0x74, 0xFE] .disassemble).status = .running ∧ (State.start [0x74, 0xFE] .disassemble).mode = .disassemble ∧
    (State.start [0x74, 0xFE] .disassemble).fetch = .decoded (.je 0xFE) := by decide

/-- Two states that differ in all the simulator holds. -/
theorem witness_DisassembleIgnoresTheSimulator :
    let s := State.start [0x05, 0x01, 0x00] .disassemble
    let s' := { s with regs := regs 1 2 3, segs := ⟨1, 2, 3, 4⟩, flags := ⟨true, true⟩, mem := [(9, 9)] }
    (s.mode = .disassemble ∧ s'.mode = .disassemble ∧ s.code = s'.code ∧ s.ip = s'.ip ∧ s.status = s'.status ∧ s.lines = s'.lines) ∧
    ∃ t, step s = .next t := ⟨by decide, _, rfl⟩

theorem witness_InputsNeverChange : ∃ t, step (sim [0xA2, 0x00, 0x00]) = .next t := ⟨_, rfl⟩

theorem witness_StoresNeverReachFetch : ∃ t, step (sim [0xC6, 0x06, 0x05, 0x00, 0x90, 0xB0, 0x01]) = .next t := ⟨_, rfl⟩

/-- A completed step in each mode and a step that ends the run. -/
theorem witness_OneLinePerCompletedStep :
    (∃ t, step (sim [0x70, 0x00]) = .next t ∧ t.status = .running) ∧
    (∃ t, step (State.start [0x70, 0x00] .disassemble) = .next t ∧ t.status = .running) ∧
    (∃ t, step (sim [0x90]) = .next t ∧ t.status ≠ .running) := ⟨⟨_, rfl, rfl⟩, ⟨_, rfl, rfl⟩, ⟨_, rfl, by decide⟩⟩

theorem witness_ChangeRecordsDescribeTheStep :
    ∃ t, (sim [0x2D, 0x00, 0x80]).mode = .simulate ∧ step (sim [0x2D, 0x00, 0x80]) = .next t ∧ t.status = .running ∧
      (∃ cs ∈ t.changes, cs.length = 3) := ⟨_, rfl, rfl, rfl, _, List.mem_singleton_self _, rfl⟩

/-- `jns 0` as a whole image: the target is `L`, the least that is past the end. -/
theorem witness_JumpPastTheEndExhausts :
    (.jns 0x00, true, 0x79#8) ∈ takenJumps 0x00 (sim [0x79, 0x00]).flags ∧ (sim [0x79, 0x00]).status = .running ∧
    (sim [0x79, 0x00]).mode = .simulate ∧ (sim [0x79, 0x00]).fetch = .decoded (.jns 0x00) ∧
    ((sim [0x79, 0x00]).code.length : Int) = (sim [0x79, 0x00]).ip + 2 + (0x00 : Byte).toInt := by decide

/-- Each of the four jumps, taken, at the first byte of an image that ends with it. -/
theorem witness_SelfJumpNeverEnds :
    ∀ c ∈ [(0, 0x74, ⟨true, true⟩), (1, 0x75, ⟨false, true⟩), (2, 0x78, ⟨true, true⟩), (3, 0x79, ⟨true, false⟩)],
      let s := { sim [c.2.1, 0xFE] with flags := c.2.2 }
      ∃ p ∈ ((takenJumps 0xFE s.flags)[c.1]?).toList, p ∈ takenJumps 0xFE s.flags ∧ p.2.1 = true ∧ s.status = .running ∧
        s.mode = .simulate ∧ s.code.drop s.ip = p.2.2 :: 0xFE#8 :: [] := by decide

theorem witness_FetchEnginePhasesMakeOneStep : (sim [0x80, 0xC8, 0x05]).status = .running := rfl

/-- The last byte of an image and the first address past it. -/
theorem witness_ResetValues : ([0xB8, 0x01, 0x07] : List Byte)[2]? = some 0x07 ∧ ([0xB8, 0x01, 0x07] : List Byte).length ≤ 3 := by decide

/-- The largest image that is accepted and the smallest that is refused. -/
theorem witness_LoadingStartsARunOrRefuses :
    (List.replicate 1048576 (0 : Byte)).length ≤ 1048576 ∧ 1048576 < (List.replicate 1048577 (0 : Byte)).length := by
  simp only [List.length_replicate]; decide

theorem witness_FinalShowsTheEndState :
    (sim []).exhaust.mode = .simulate ∧ (sim []).exhaust.status ≠ .running ∧
    (∃ t, step (sim [0x90]) = .next t ∧ t.status ≠ .running) := ⟨rfl, by decide, _, rfl, by decide⟩

theorem witness_InvariantHoldsAtReset : ∃ s, State.load [0x90] .disassemble = .next s := ⟨_, rfl⟩

/-- A state with a listed byte, an emitted line and its records. -/
theorem witness_StepKeepsTheInvariant :
    let s := { sim [0xA2, 0x09, 0x00] with mem := [(9, 9)], lines := ["x"], changes := [[]] }
    s.Inv ∧ ∃ t, step s = .next t :=
  ⟨⟨by decide, by decide, fun _ => rfl, by simp, nofun, nofun⟩, _, rfl⟩

end Sys2Proof.Tests
end

section
/-! PROOFS. The statements of spec/10_state.md: the 8-bit views as halves of their parents (R24) and the run status (R35). -/

namespace Sys2Proof.Machine

/-! ### The 8-bit views -/

theorem parent_code (r : Reg8) : r.parent.code.toNat = r.code.toNat % 4 := by cases r <;> rfl

theorem high_iff_four_le_code (r : Reg8) : r.high = true ↔ 4 ≤ r.code.toNat := by cases r <;> decide

/-- R24: a view's value is its parent's upper or lower half. -/
theorem toNat_reg8 (s : State) (r : Reg8) :
    (s.reg8 r).toNat = if r.high = true then (s.reg16 r.parent).toNat / 256 else (s.reg16 r.parent).toNat % 256 := by
  rw [reg8_eq, apply_ite BitVec.toNat, toNat_hiByte, toNat_loByte]

/-- R24: the parent after a write through a view holds the written byte in the view's half and its own in the other. -/
theorem reg16_setReg8_parent (s : State) (r : Reg8) (v : Byte) :
    (s.setReg8 r v).reg16 r.parent =
      if r.high = true then wordOf (loByte (s.reg16 r.parent)) v else wordOf v (hiByte (s.reg16 r.parent)) := by
  rw [setReg8_eq, reg16_setReg16, if_pos rfl]

theorem toNat_reg16_setReg8_parent (s : State) (r : Reg8) (v : Byte) :
    ((s.setReg8 r v).reg16 r.parent).toNat =
      if r.high = true then (s.reg16 r.parent).toNat % 256 + 256 * v.toNat
      else 256 * ((s.reg16 r.parent).toNat / 256) + v.toNat := by
  rw [reg16_setReg8_parent, apply_ite BitVec.toNat, toNat_wordOf, toNat_wordOf, toNat_loByte, toNat_hiByte,
    Nat.add_comm v.toNat]

/-- Settles O12: reads and writes of a view are `hiByte`, `loByte` and `wordOf` of the parent; the source's example is the write of
`al` by that rule. -/
theorem eightBitViewsAliasTheirParent : Obligations.EightBitViewsAliasTheirParent := by
  refine ⟨fun r => ⟨parent_code r, high_iff_four_le_code r⟩, toNat_reg8, fun s r v => ⟨?parent, ?same, ?views, ?registers⟩,
    fun s hax => ⟨?ah, ?ax⟩⟩
  case parent => exact toNat_reg16_setReg8_parent s r v
  case same => rw [reg8_setReg8, if_pos rfl]
  case views => exact fun q hq => by rw [reg8_setReg8, if_neg hq.symm]
  case registers => exact fun q hq => reg16_setReg8_of_ne s r q v hq
  case ah =>
    have keptHalf : s.reg8 .ah = hiByte (s.reg16 .ax) := reg8_eq s .ah
    rw [reg8_setReg8, if_neg (by decide), keptHalf, hax]
    decide
  case ax =>
    have written : (s.setReg8 .al 0xFF#8).reg16 .ax = wordOf 0xFF#8 (hiByte (s.reg16 .ax)) := reg16_setReg8_parent s .al 0xFF#8
    rw [written, hax]
    decide

/-! ### The run status -/

theorem start_status (code : List Byte) (mode : Mode) : (State.start code mode).status = .running := rfl

/-- R35: only `Running` enables a step. -/
theorem running_of_step {s t : State} (h : step s = .next t) : s.status = .running := (step_cases h).1

theorem status_cases (u : Status) : u = .running ∨ u = .exhausted ∨ ∃ k c, u = .error k c := by
  cases u with
  | running => exact .inl rfl
  | exhausted => exact .inr (.inl rfl)
  | error k c => exact .inr (.inr ⟨k, c, rfl⟩)

/-- Settles O29: the guard of `step_cases` for the two clauses on steps; the last clause holds of any status. -/
theorem statusIsTerminal : Obligations.StatusIsTerminal :=
  ⟨start_status, fun _ _ => running_of_step, fun _ _ ended h => ended (running_of_step h), fun _ t _ => status_cases t.status⟩

end Sys2Proof.Machine
end

section
/-! PROOFS. The statements of spec/20_memory.md: words in memory, low byte first (R48, R50). -/

namespace Sys2Proof.Machine

/-- R48: byte `a` of a word written at `a` is the low byte. -/
theorem readByte_writeWord_low (s : State) (a : Nat) (v : Word) : (s.writeWord a v).readByte a = loByte v := by
  rw [readByte_writeWord, if_neg (Nat.succ_ne_self a), if_pos rfl]

/-- R48: byte `a + 1` of a word written at `a` is the high byte. -/
theorem readByte_writeWord_high (s : State) (a : Nat) (v : Word) : (s.writeWord a v).readByte (a + 1) = hiByte v := by
  rw [readByte_writeWord, if_pos rfl]

/-- R50: a word read is `Memory[a] | (Memory[a+1] << 8)`. -/
theorem toNat_readWord (s : State) (a : Nat) :
    (s.readWord a).toNat = (s.readByte a).toNat + 256 * (s.readByte (a + 1)).toNat :=
  toNat_wordOf (s.readByte a) (s.readByte (a + 1))

/-- Settles O14: a written word's two bytes are its `loByte` and `hiByte`, and a read word is `wordOf` of its two bytes; the rest is the
value of each. -/
theorem memoryIsLittleEndian : Obligations.MemoryIsLittleEndian := by
  refine ⟨fun s a v => ⟨?low, ?high⟩, toNat_readWord⟩
  case low => rw [readByte_writeWord_low, toNat_loByte]
  case high => rw [readByte_writeWord_high, toNat_hiByte]

end Sys2Proof.Machine
end

section
/-! PROOFS. The statements of spec/30_encoding.md on the decoder's results: the length of an instruction (R73, R75, R76), the sub-opcode of
80 to 83 (R71), and totality (R95). -/

namespace Sys2Proof.Machine

/-! ### The length from the bits of the first two bytes -/

/-- R73: the displacement length by bits is the Length Resolver's. -/
theorem dispBytesOf_eq_dispLen (b : Byte) : dispBytesOf b = dispLen (modField b) (rmField b) := by revert b; decide

theorem dispBytesOf_le_two (b : Byte) : dispBytesOf b ≤ 2 := by revert b; decide

/-- R64: a width bit as a number; MOV immediate to register has it at bit 3 (`BitVec.getLsbD_ushiftRight`). -/
theorem toNat_and_one (b : Byte) : (b &&& 1#8).toNat = (b.getLsbD 0).toNat := by revert b; decide

/-- R74: `s = 0` and `w = 1`, the one ALU form with a two-byte immediate. -/
theorem and_three_eq_one (b : Byte) : b &&& 3#8 = 1#8 ↔ b.getLsbD 0 = true ∧ b.getLsbD 1 = false := by revert b; decide

theorem immLen_eq (w : Bool) : immLen w = 1 + w.toNat := by cases w <;> rfl

theorem immLenAlu_eq (s w : Bool) : immLenAlu s w = 1 + if w = true ∧ s = false then 1 else 0 := by
  cases s <;> cases w <;> rfl

/-- R75: the length by bits is the Length Resolver's. -/
theorem one_add_additionalLength (cls : LenClass) (b0 b1 : Byte) : 1 + additionalLength cls b0 b1 = lengthOf cls b0 b1 := by
  cases cls <;>
    simp only [additionalLength, lengthOf, dispBytesOf_eq_dispLen, toNat_and_one, BitVec.getLsbD_ushiftRight, Nat.add_zero,
      and_three_eq_one, immLen_eq, immLenAlu_eq] <;>
    omega

/-- R66: every class is 2 to 6 bytes long. -/
theorem lengthOf_bounds (cls : LenClass) (b0 b1 : Byte) : 2 ≤ lengthOf cls b0 b1 ∧ lengthOf cls b0 b1 ≤ 6 := by
  have disp := dispBytesOf_le_two b1
  have w := (b0.getLsbD 0).toNat_le
  have wide : (if b0 &&& 3#8 = 1#8 then 1 else 0) ≤ 1 := by split <;> decide
  have wReg := (b0.getLsbD 3).toNat_le
  cases cls <;> simp only [lengthOf, toNat_and_one, BitVec.getLsbD_ushiftRight, Nat.add_zero] <;> omega

/-- R76: the second byte counts only for a class that needs it, and only by `mod` and `rm`. -/
theorem lengthOf_congr {cls : LenClass} {b1 c1 : Byte} (b0 : Byte)
    (h : cls.needsModRm = true → modField b1 = modField c1 ∧ rmField b1 = rmField c1) : lengthOf cls b0 b1 = lengthOf cls b0 c1 := by
  have disp : cls.needsModRm = true → dispBytesOf b1 = dispBytesOf c1 := fun hm => by
    rw [dispBytesOf_eq_dispLen, dispBytesOf_eq_dispLen, (h hm).1, (h hm).2]
  cases cls
  case regMem | immToRegMemAlu | immToRegMemMov => simp only [lengthOf, disp rfl]
  all_goals rfl

/-- R100, R103: a class needs the second byte exactly when some two second bytes give two lengths. -/
theorem needsModRm_iff_length_varies (cls : LenClass) :
    cls.needsModRm = true ↔ ∃ b0 b1 c1 : Byte, lengthOf cls b0 b1 ≠ lengthOf cls b0 c1 := by
  constructor
  · intro hm
    have direct : dispBytesOf 0x06 ≠ dispBytesOf 0xC0 := by decide
    refine ⟨0, 0x06, 0xC0, ?_⟩
    cases cls
    case regMem | immToRegMemAlu | immToRegMemMov => simpa [lengthOf] using direct
    all_goals cases hm
  · rintro ⟨b0, b1, c1, differ⟩
    by_contra hm
    exact differ (lengthOf_congr b0 fun h => absurd h hm)

theorem mem_modRmClasses (cls : LenClass) : cls ∈ [.regMem, .immToRegMemAlu, .immToRegMemMov] ↔ cls.needsModRm = true := by
  cases cls <;> decide

/-! ### The length of an assembled instruction -/

theorem dispLen_rmOperand {ρ : Type} (reg : BitVec 3 → ρ) (bytes : List Byte) :
    (rmOperand reg bytes).dispLen = dispBytesOf (byteAt bytes 1) := by
  rw [dispBytesOf_eq_dispLen]
  unfold rmOperand dispLen
  dsimp only
  split
  · split <;> rfl
  all_goals rfl

theorem length_rmRegOperands (bytes : List Byte) : (rmRegOperands bytes).length = lengthOf .regMem (byteAt bytes 0) (byteAt bytes 1) := by
  unfold rmRegOperands
  split <;> simp only [RmReg.length, dispLen_rmOperand, lengthOf]

theorem length_rmImmOperands (bytes : List Byte) :
    (rmImmOperands bytes).length = lengthOf .immToRegMemMov (byteAt bytes 0) (byteAt bytes 1) := by
  simp only [rmImmOperands, lengthOf, toNat_and_one]
  cases (byteAt bytes 0).getLsbD 0 <;> simp [widthOf, RmImm.length, dispLen_rmOperand, Nat.add_right_comm 3 _ 1]

theorem length_rmImmAluOperands (bytes : List Byte) :
    (rmImmAluOperands bytes).length = lengthOf .immToRegMemAlu (byteAt bytes 0) (byteAt bytes 1) := by
  simp only [rmImmAluOperands, lengthOf, and_three_eq_one]
  cases (byteAt bytes 0).getLsbD 0 <;> cases (byteAt bytes 0).getLsbD 1 <;>
    simp [widthOf, RmImmAlu.length, dispLen_rmOperand, Nat.add_right_comm 3 _ 1]

theorem length_regImmOperands (bytes : List Byte) :
    (regImmOperands bytes).length = lengthOf .immToReg (byteAt bytes 0) (byteAt bytes 1) := by
  simp only [regImmOperands, lengthOf, toNat_and_one, BitVec.getLsbD_ushiftRight, Nat.add_zero]
  cases (byteAt bytes 0).getLsbD 3 <;> rfl

theorem length_accImmOperands (bytes : List Byte) :
    (accImmOperands bytes).length = lengthOf .accImm (byteAt bytes 0) (byteAt bytes 1) := by
  simp only [accImmOperands, lengthOf, toNat_and_one]
  cases (byteAt bytes 0).getLsbD 0 <;> rfl

/-- R68: the length class of a kind; `cls_eq_classOf` ties it to the encoding table. -/
def classOf : Kind → LenClass
  | .movRmReg | .movRmSreg | .movSregRm | .addRmReg | .subRmReg | .cmpRmReg => .regMem
  | .movImmReg => .immToReg
  | .movImmRm => .immToRegMemMov
  | .addImmRm | .subImmRm | .cmpImmRm => .immToRegMemAlu
  | .addImmAcc | .subImmAcc | .cmpImmAcc => .accImm
  | .movMemAcc | .movAccMem => .memAcc
  | _ => .shortJump

theorem length_assemble (k : Kind) (bytes : List Byte) :
    (assemble k bytes).length = lengthOf (classOf k) (byteAt bytes 0) (byteAt bytes 1) := by
  cases k
  case movRmReg | addRmReg | subRmReg | cmpRmReg => exact length_rmRegOperands bytes
  case movRmSreg | movSregRm => exact congrArg (2 + ·) (dispLen_rmOperand reg16Of bytes)
  case movImmReg => exact length_regImmOperands bytes
  case movImmRm => exact length_rmImmOperands bytes
  case addImmRm | subImmRm | cmpImmRm => exact length_rmImmAluOperands bytes
  case addImmAcc | subImmAcc | cmpImmAcc => exact length_accImmOperands bytes
  all_goals rfl

@[simp] theorem kind_assemble (k : Kind) (bytes : List Byte) : (assemble k bytes).kind = k := by cases k <;> rfl

/-- R68: the row of 80 to 83, the one whose kind the sub-opcode resolves. -/
def aluRow : EncRow := ⟨6, 0b10000000#8, .immToRegMemAlu, .aluByOp3⟩

/-- R68: a row settles the kind, and the length class is the kind's, or it is `aluRow`. -/
theorem row_cases : ∀ row ∈ encodingTable, (∃ k, row.kind = .one k ∧ row.cls = classOf k) ∨ row = aluRow := by
  simp [encodingTable, encodingRowsSeg, encodingRowsJump, encodingRowsShort, classOf, aluRow]

theorem classOf_resolveOp3 {op3 : BitVec 3} {k : Kind} (h : resolveOp3 op3 = some k) : classOf k = .immToRegMemAlu := by
  unfold resolveOp3 at h
  split at h <;> cases h <;> rfl

/-- R71: a row that fixes the kind does not look at the second byte. -/
theorem resolveKind_of_one {row : EncRow} {k : Kind} (hone : row.kind = .one k) (b1 : Byte) : resolveKind row b1 = some k := by
  rw [resolveKind, hone]

/-- R68, R71: the length class of a row is the class of the kind it resolves to. -/
theorem cls_eq_classOf {row : EncRow} {b1 : Byte} {k : Kind} (hrow : row ∈ encodingTable) (hk : resolveKind row b1 = some k) :
    row.cls = classOf k := by
  rcases row_cases row hrow with ⟨k', hone, hcls⟩ | rfl
  · rw [hcls, Option.some.inj (hk.symm.trans (resolveKind_of_one hone b1))]
  · exact (classOf_resolveOp3 hk).symm

/-! ### What the decoder answers on two bytes and more -/

section

variable {b0 b1 : Byte} {x : List Byte} {row : EncRow} (hrow : classify b0 = some row)
include hrow

/-- R104: fewer bytes than the length. -/
theorem decode_of_short (hlen : x.length + 2 < lengthOf row.cls b0 b1) :
    decode (b0 :: b1 :: x) = .error (.truncated b0 (lengthOf row.cls b0 b1) (x.length + 2)) := by
  have short : resolveLength row b0 (b1 :: x) = .error (.truncated b0 (lengthOf row.cls b0 b1) (x.length + 2)) := by
    simp [resolveLength, byteAt_zero, one_add_additionalLength, hlen]
  simp only [decode, hrow, short]

/-- R89, R103: with all bytes of the instruction there, its chunk alone decides. -/
theorem decode_of_fits (hlen : lengthOf row.cls b0 b1 ≤ x.length + 2) :
    decode (b0 :: b1 :: x) = (resolveInstr row (b0 :: b1 :: x.take (lengthOf row.cls b0 b1 - 2))).map
      fun i => (i, x.drop (lengthOf row.cls b0 b1 - 2)) := by
  have fits : resolveLength row b0 (b1 :: x) = .ok (lengthOf row.cls b0 b1) :=
    resolveLength_ok.2 ⟨by simp, (one_add_additionalLength row.cls b0 b1).symm, hlen⟩
  obtain ⟨m, hm⟩ := Nat.exists_eq_add_of_le' (lengthOf_bounds row.cls b0 b1).1
  simp only [decode, hrow, fits, hm, List.take_succ_cons, List.drop_succ_cons, Nat.add_sub_cancel]
  cases resolveInstr row (b0 :: b1 :: x.take m) <;> rfl

/-- R89, R103: a complete chunk whose kind resolves. -/
theorem decode_of_kind {k : Kind} (hlen : lengthOf row.cls b0 b1 ≤ x.length + 2) (hk : resolveKind row b1 = some k) :
    decode (b0 :: b1 :: x) =
      .ok (assemble k (b0 :: b1 :: x.take (lengthOf row.cls b0 b1 - 2)), x.drop (lengthOf row.cls b0 b1 - 2)) := by
  simp [decode_of_fits hrow hlen, resolveInstr, byteAt_succ, byteAt_zero, hk, Except.map]

/-- R71: a complete chunk whose sub-opcode is unsupported. -/
theorem decode_of_no_kind (hlen : lengthOf row.cls b0 b1 ≤ x.length + 2) (hk : resolveKind row b1 = none) :
    decode (b0 :: b1 :: x) = .error (.unsupported b0 (some b1)) := by
  simp [decode_of_fits hrow hlen, resolveInstr, byteAt_succ, byteAt_zero, hk, Except.map]

end

/-- What a successful decode says of its bytes: the row and the kind, enough bytes for the length by bits, the instruction assembled from
those bytes, and the bytes after them. -/
structure Decoded (row : EncRow) (k : Kind) (b0 b1 : Byte) (x rest : List Byte) (i : Instr) : Prop where
  row_eq : classify b0 = some row
  kind_eq : resolveKind row b1 = some k
  fits : lengthOf row.cls b0 b1 ≤ x.length + 2
  instr_eq : i = assemble k (b0 :: b1 :: x.take (lengthOf row.cls b0 b1 - 2))
  rest_eq : rest = x.drop (lengthOf row.cls b0 b1 - 2)

/-- R66: what decodes has two bytes or more. -/
theorem two_bytes_of_decode {bs rest : List Byte} {i : Instr} (h : decode bs = .ok (i, rest)) : ∃ b0 b1 x, bs = b0 :: b1 :: x := by
  obtain ⟨b0, tl, row, n, rfl, -, hn, -, -⟩ := decode_ok_cases h
  obtain ⟨-, hlen, hfits⟩ := resolveLength_ok.1 hn
  have bound := (lengthOf_bounds row.cls b0 (byteAt tl 0)).1
  rw [← one_add_additionalLength] at bound
  cases tl with
  | nil => simp only [List.length_nil] at hfits; omega
  | cons b1 x => exact ⟨b0, b1, x, rfl⟩

theorem decoded_of_decode {b0 b1 : Byte} {x rest : List Byte} {i : Instr} (h : decode (b0 :: b1 :: x) = .ok (i, rest)) :
    ∃ row k, Decoded row k b0 b1 x rest i := by
  obtain ⟨_, _, row, n, hbs, hrow, hn, -, -⟩ := decode_ok_cases h
  cases hbs
  obtain ⟨-, hlen, hfits⟩ := resolveLength_ok.1 hn
  rw [one_add_additionalLength] at hlen
  subst hlen
  cases hk : resolveKind row b1 with
  | none => cases (decode_of_no_kind hrow hfits hk).symm.trans h
  | some k => cases (decode_of_kind hrow hfits hk).symm.trans h; exact ⟨row, k, hrow, hk, hfits, rfl, rfl⟩

section

variable {row : EncRow} {k : Kind} {b0 b1 : Byte} {x rest : List Byte} {i : Instr} (h : Decoded row k b0 b1 x rest i)
include h

theorem Decoded.row_unique {row' : EncRow} (hrow : classify b0 = some row') : row = row' :=
  Option.some.inj (h.row_eq.symm.trans hrow)

/-- R71: of a row that fixes the kind, every instruction has that kind. -/
theorem Decoded.kind_of_one {fixed : Kind} (hone : row.kind = .one fixed) : i.kind = fixed := by
  rw [h.instr_eq, kind_assemble]
  exact Option.some.inj (h.kind_eq.symm.trans (resolveKind_of_one hone b1))

/-- R73: what the decoder consumes is the length by bits. -/
theorem Decoded.consumed : x.length + 2 = lengthOf row.cls b0 b1 + rest.length := by
  have bound := (lengthOf_bounds row.cls b0 b1).1
  have fits := h.fits
  rw [h.rest_eq, List.length_drop]
  omega

/-- R75: the instruction's own length is the length by bits. -/
theorem Decoded.length_eq : i.length = lengthOf row.cls b0 b1 := by
  rw [h.instr_eq, length_assemble, cls_eq_classOf (classify_mem h.row_eq).1 h.kind_eq]
  rfl

/-- R76: the consumed bytes alone decode to the same instruction. -/
theorem Decoded.decode_chunk : decode (b0 :: b1 :: x.take (lengthOf row.cls b0 b1 - 2)) = .ok (i, []) := by
  have fits := h.fits
  have whole : (x.take (lengthOf row.cls b0 b1 - 2)).length = lengthOf row.cls b0 b1 - 2 := List.length_take_of_le (by omega)
  rw [decode_of_kind h.row_eq (by omega) h.kind_eq, List.take_take, min_self, ← h.instr_eq, List.drop_eq_nil_of_le whole.le]

end

/-- R73: a decode splits its bytes into the instruction's and the rest. -/
theorem length_of_decode {bs rest : List Byte} {i : Instr} (h : decode bs = .ok (i, rest)) : bs.length = i.length + rest.length := by
  obtain ⟨b0, b1, x, rfl⟩ := two_bytes_of_decode h
  obtain ⟨row, k, d⟩ := decoded_of_decode h
  rw [d.length_eq, ← d.consumed]
  rfl

/-- Settles O4: both lengths are `lengthOf` of the one row, which reads `mod` and `rm` of the second byte at most (`lengthOf_congr`); the
consumed bytes are the chunk the instruction was assembled from. -/
theorem lengthIsReadFromTheFirstBytes : Obligations.LengthIsReadFromTheFirstBytes := by
  refine ⟨fun b0 b1 c1 x y r q i j hx hy agree => ?sameLength, fun bs rest i h => ?again⟩
  case sameLength =>
    obtain ⟨row, k, d⟩ := decoded_of_decode hx
    obtain ⟨row', k', d'⟩ := decoded_of_decode hy
    obtain rfl := d.row_unique d'.row_eq
    rw [d.consumed, d'.consumed, Nat.add_sub_cancel, Nat.add_sub_cancel, lengthOf_congr b0 (agree row d.row_eq)]
  case again =>
    obtain ⟨b0, b1, x, rfl⟩ := two_bytes_of_decode h
    obtain ⟨row, k, d⟩ := decoded_of_decode h
    obtain ⟨m, hm⟩ := Nat.exists_eq_add_of_le' (lengthOf_bounds row.cls b0 b1).1
    have consumed : (b0 :: b1 :: x).length - rest.length = m + 2 := hm ▸ Nat.sub_eq_of_eq_add d.consumed
    have chunk := d.decode_chunk
    have after := d.rest_eq
    rw [hm, Nat.add_sub_cancel] at chunk after
    rw [consumed]
    exact ⟨chunk, after.symm⟩

/-- Settles O5: `Decoded` for the first clause; the other two are about `lengthOf` alone. -/
theorem lengthByClass : Obligations.LengthByClass := by
  refine ⟨fun b0 b1 x rest i row h hrow => ?_, lengthOf_bounds, fun cls =>
    (mem_modRmClasses cls).trans (needsModRm_iff_length_varies cls)⟩
  obtain ⟨row', k, d⟩ := decoded_of_decode h
  obtain rfl := d.row_unique hrow
  exact ⟨d.consumed, d.length_eq⟩

/-! ### The sub-opcode of 80 to 83 -/

/-- R68: the bytes 80 to 83 match `aluRow`. -/
theorem classify_eq_aluRow : ∀ b0 : Byte, 0x80 ≤ b0.toNat → b0.toNat ≤ 0x83 → classify b0 = some aluRow := by decide

/-- R68: `aluRow` matches no other byte. -/
theorem range_of_aluRow_hits : ∀ b0 : Byte, aluRow.hits b0 = true → 0x80 ≤ b0.toNat ∧ b0.toNat ≤ 0x83 := by decide

/-- R71: outside 80 to 83 the first byte fixes the kind. -/
theorem exists_kind_of_classify {b0 : Byte} {row : EncRow} (outside : b0.toNat < 0x80 ∨ 0x83 < b0.toNat) (hrow : classify b0 = some row) :
    ∃ k, row.kind = .one k := by
  obtain ⟨hmem, hits⟩ := classify_mem hrow
  rcases row_cases row hmem with ⟨k, hone, -⟩ | rfl
  · exact ⟨k, hone⟩
  · have := range_of_aluRow_hits b0 hits
    omega

/-- R71: the kind by bits 5 to 3 of the second byte. -/
theorem resolveOp3_regField (b1 : Byte) : resolveOp3 (regField b1) =
    if (b1 >>> 3) &&& 7#8 = 0b000#8 then some .addImmRm
    else if (b1 >>> 3) &&& 7#8 = 0b101#8 then some .subImmRm
    else if (b1 >>> 3) &&& 7#8 = 0b111#8 then some .cmpImmRm
    else none := by revert b1; decide

/-- Settles O9: the row of 80 to 83 resolves its kind by `resolveOp3_regField`, after the length; every other row holds its kind. -/
theorem subOpcodeSelectsTheKind : Obligations.SubOpcodeSelectsTheKind := by
  refine ⟨fun b0 b1 x low high hlen => ?group, fun b0 b1 x low high hlen => decode_of_short (classify_eq_aluRow b0 low high) hlen,
    fun b0 x y r q i j outside hx hy => ?others⟩
  case group =>
    have hrow := classify_eq_aluRow b0 low high
    have op3 := resolveOp3_regField b1
    refine ⟨fun add => ?_, fun sub => ?_, fun cmp => ?_, fun notAdd notSub notCmp => ?_⟩
    · exact ⟨_, _, decode_of_kind (k := .addImmRm) hrow hlen (op3.trans (by rw [add]; rfl))⟩
    · exact ⟨_, _, decode_of_kind (k := .subImmRm) hrow hlen (op3.trans (by rw [sub]; rfl))⟩
    · exact ⟨_, _, decode_of_kind (k := .cmpImmRm) hrow hlen (op3.trans (by rw [cmp]; rfl))⟩
    · exact decode_of_no_kind hrow hlen (op3.trans (by rw [if_neg notAdd, if_neg notSub, if_neg notCmp]))
  case others =>
    obtain ⟨_, b1, x, ⟨⟩⟩ := two_bytes_of_decode hx
    obtain ⟨_, c1, y, ⟨⟩⟩ := two_bytes_of_decode hy
    obtain ⟨row, k, d⟩ := decoded_of_decode hx
    obtain ⟨row', k', d'⟩ := decoded_of_decode hy
    obtain rfl := d.row_unique d'.row_eq
    obtain ⟨fixed, hone⟩ := exists_kind_of_classify outside d.row_eq
    rw [d.kind_of_one hone, d'.kind_of_one hone]

/-! ### Totality -/

/-- Settles O10: the cases of `fetch_cases`; a decoded instruction's bytes are among those from `ip` on. -/
theorem decoderIsTotal : Obligations.DecoderIsTotal := by
  refine fun s => ⟨fetch_exhausted, fun inside => ?_⟩
  rcases fetch_cases s with ⟨past, -⟩ | ⟨_, _, -, failed⟩ | ⟨_, _, _, -, failed⟩ | ⟨i, rest, hdec, -, decoded⟩
  · omega
  · exact .inr (.inl ⟨_, failed⟩)
  · exact .inr (.inr ⟨_, failed⟩)
  · have parts := length_of_decode hdec
    rw [List.length_drop] at parts
    exact .inl ⟨i, decoded, by omega⟩

end Sys2Proof.Machine
end

section
/-! PROOFS. The statements of spec/40_sequencer_and_renderer.md on single steps: exhaustion (R101), the `Disassemble` step (R106) and
`FINAL` after the step that ended a run (R127). -/

namespace Sys2Proof.Machine

/-! ### The step that ends a run -/

/-- R101: a step with no byte left. -/
theorem step_exhausted {s : State} (hr : s.status = .running) (hend : s.code.length ≤ s.ip) : step s = .next s.exhaust := by
  unfold step; rw [hr]; simp only [fetch_exhausted hend]

/-- R101: only at the end of the image does the fetch find nothing. -/
theorem length_le_ip_of_fetch_exhausted {s : State} (h : s.fetch = .exhausted) : s.code.length ≤ s.ip := by
  rcases fetch_cases s with ⟨hend, -⟩ | ⟨_, _, -, hf⟩ | ⟨_, _, _, -, hf⟩ | ⟨_, _, -, -, hf⟩
  · exact hend
  all_goals rw [h] at hf; cases hf

/-- R101, R217: a step that ends the run is an exhaustion at the end of the image or an error; no instruction completes in it. -/
theorem exhaust_or_raise_of_step_ended {s t : State} (h : step s = .next t) (ended : t.status ≠ .running) :
    (s.code.length ≤ s.ip ∧ t = s.exhaust) ∨ ∃ k c, t = s.raise k c := by
  obtain ⟨hr, ⟨hf, ht⟩ | ⟨k, c, -, ht⟩ | ⟨i, -, -, ht⟩ | ⟨i, u, -, -, hx, ht⟩⟩ := step_cases h
  · exact .inl ⟨length_le_ip_of_fetch_exhausted hf, ht⟩
  · exact .inr ⟨k, c, ht⟩
  · have completed : t.status = .running := by rw [ht]; exact hr
    exact absurd completed ended
  · have uended : u.status ≠ .running := by rwa [ht, retireSimulated_status] at ended
    rw [retireSimulated_ended s i uended] at ht
    rcases exec_status hx with hkept | ⟨c, hraise, -⟩
    · exact absurd (hkept.trans hr) uended
    · exact .inr ⟨_, c, ht.trans hraise⟩

/-- Settles O28: the second clause is the case split of `exhaust_or_raise_of_step_ended`; the empty image is the first clause at
`ip = 0`. -/
theorem exhaustionIsClean : Obligations.ExhaustionIsClean := by
  refine ⟨fun s hr hend => step_exhausted hr hend, fun s t h hst => ?only, fun mode => ?empty⟩
  case only =>
    rcases exhaust_or_raise_of_step_ended h (by simp [hst]) with ⟨hend, -⟩ | ⟨k, c, rfl⟩
    · exact hend
    · cases hst
  case empty => exact step_exhausted (start_status [] mode) (Nat.zero_le _)

/-! ### The `Disassemble` step -/

/-- Settles O34: `step_disassemble`, with `length_encode` for the number of bytes. -/
theorem disassembleStepFallsThrough : Obligations.DisassembleStepFallsThrough := by
  intro s i hr hm hf
  rw [length_encode]
  exact step_disassemble hr hm hf

/-! ### `FINAL` -/

@[simp] theorem length_memoryImage (s : State) : s.memoryImage.length = 1048576 := by
  simp [State.memoryImage, Config.memorySize]

theorem getElem?_memoryImage (s : State) {a : Nat} (ha : a < 1048576) : s.memoryImage[a]? = some (s.readByte a) := by
  simp [State.memoryImage, Config.memorySize, ha]

/-- R127: `FINAL` of a `Simulate` run that has ended. -/
theorem final_simulate {s : State} (hm : s.mode = .simulate) (ended : s.status ≠ .running) :
    s.final = some (.simulate s.regs s.segs s.flags s.ip s.memoryImage s.status) := by
  unfold State.final
  cases hst : s.status with
  | running => exact absurd hst ended
  | exhausted => simp only [hm]
  | error k c => simp only [hm]

/-- Settles O45: `final_simulate` with the image's length and bytes; the step that ended the run is an `exhaust` or a `raise`, and each
sets the status alone. -/
theorem finalShowsTheEndState : Obligations.FinalShowsTheEndState := by
  refine ⟨fun s hm ended => ?final, fun s t h ended => ?step⟩
  case final => exact ⟨s.memoryImage, final_simulate hm ended, length_memoryImage s, fun a ha => getElem?_memoryImage s ha⟩
  case step =>
    rcases exhaust_or_raise_of_step_ended h ended with ⟨-, rfl⟩ | ⟨k, c, rfl⟩
    · rfl
    · rfl

end Sys2Proof.Machine
end

section
/-! PROOFS. The statements of spec/41_mov.md: each of the seven MOV kinds copies its source to its destination (R140). -/

namespace Sys2Proof.Machine

/-- R140: an instruction executed by `mov` with 8-bit roles copies its source to its destination. -/
theorem copies8_of_exec_eq_mov {i : Instr} {dst : Loc8} (src : Src8) {s : State}
    (h : exec i s = mov (.byte dst src) i.length s) : Copies8 i dst (s.readSrc8 src) s := by
  unfold Copies8
  rw [h, length_encode]
  exact mov_byte dst src i.length s

/-- R140: an instruction executed by `mov` with 16-bit roles copies its source to its destination. -/
theorem copies16_of_exec_eq_mov {i : Instr} {dst : Loc16} (src : Src16) {s : State}
    (h : exec i s = mov (.word dst src) i.length s) : Copies16 i dst (s.readSrc16 src) s := by
  unfold Copies16
  rw [h, length_encode]
  exact mov_word dst src i.length s

/-- Settles O18: every form is executed by `mov`, and each case names the source that R88 gives its kind. -/
theorem movFamilyCopies : Obligations.MovFamilyCopies := by
  refine ⟨?rmRegByte, ?rmRegWord, ?immRegByte, ?immRegWord, ?immRmByte, ?immRmWord, ?accumulator, ?segment⟩
  case rmRegByte =>
    exact fun rm reg s => ⟨copies8_of_exec_eq_mov (.loc (.reg reg)) rfl, copies8_of_exec_eq_mov (.loc (rmLoc8 rm)) rfl⟩
  case rmRegWord =>
    exact fun rm reg s => ⟨copies16_of_exec_eq_mov (.loc (.reg reg)) rfl, copies16_of_exec_eq_mov (.loc (rmLoc16 rm)) rfl⟩
  case immRegByte => exact fun reg v s => copies8_of_exec_eq_mov (.imm v) rfl
  case immRegWord => exact fun reg v s => copies16_of_exec_eq_mov (.imm v) rfl
  case immRmByte => exact fun g rm v s => copies8_of_exec_eq_mov (.imm v) rfl
  case immRmWord => exact fun g rm v s => copies16_of_exec_eq_mov (.imm v) rfl
  case accumulator =>
    exact fun a s =>
      ⟨copies8_of_exec_eq_mov (.loc (.mem (.direct a))) rfl, copies16_of_exec_eq_mov (.loc (.mem (.direct a))) rfl,
        copies8_of_exec_eq_mov (.loc (.reg .al)) rfl, copies16_of_exec_eq_mov (.loc (.reg .ax)) rfl⟩
  case segment =>
    exact fun g sr rm s => ⟨copies16_of_exec_eq_mov (.loc (rmLoc16 rm)) rfl, copies16_of_exec_eq_mov (.loc (.sreg sr)) rfl⟩

end Sys2Proof.Machine
end

section
/-! PROOFS. The statements of spec/42_alu.md: the nine ADD, SUB and CMP kinds compute their result and flags (R160). -/

namespace Sys2Proof.Machine

section
variable (op : AluOp)

/-! ### Each form is executed by `alu`, whatever the operation -/

/-- R163, R166, R169. -/
theorem exec_aluRmReg (d : Dir) (o : RmReg) (s : State) :
    exec (aluRmReg op d o) s = alu op (rmRegRoles d o) (aluRmReg op d o).length s := by cases op <;> rfl

/-- R164, R167, R170. -/
theorem exec_aluImmRm (o : RmImmAlu) (s : State) :
    exec (aluImmRm op o) s = alu op (rmImmAluRoles o) (aluImmRm op o).length s := by cases op <;> rfl

/-- R165, R168, R171. -/
theorem exec_aluImmAcc (o : AccImm) (s : State) :
    exec (aluImmAcc op o) s = alu op (accImmRoles o) (aluImmAcc op o).length s := by cases op <;> rfl

/-! ### What an instruction executed by `alu` computes -/

/-- R160: an instruction executed by `alu` with 8-bit roles computes from its destination and its source. -/
theorem computes8_of_exec_eq_alu {i : Instr} {dst : Loc8} (src : Src8) {s : State}
    (h : exec i s = alu op (.byte dst src) i.length s) : Computes8 op i dst (s.readSrc8 src) s := by
  unfold Computes8
  rw [h, length_encode]
  exact alu_byte op dst src i.length s

/-- R160: an instruction executed by `alu` with 16-bit roles computes from its destination and its source. -/
theorem computes16_of_exec_eq_alu {i : Instr} {dst : Loc16} (src : Src16) {s : State}
    (h : exec i s = alu op (.word dst src) i.length s) : Computes16 op i dst (s.readSrc16 src) s := by
  unfold Computes16
  rw [h, length_encode]
  exact alu_word op dst src i.length s

end

/-- R79: the sign-extended immediate is the word of its signed value. -/
theorem sext16_eq_ofInt (v : Byte) : sext16 v = BitVec.ofInt 16 v.toInt := rfl

/-- Settles O19: every form is executed by `alu`, and each case names the source that R88 gives it. -/
theorem aluFamilyComputes : Obligations.AluFamilyComputes := by
  intro op s
  refine ⟨?rmRegByte, ?rmRegWord, ?immRmByte, ?immRmWord, ?immRmSignExtended, ?accByte, ?accWord⟩
  case rmRegByte =>
    exact fun rm reg =>
      ⟨computes8_of_exec_eq_alu op (.loc (.reg reg)) (exec_aluRmReg op .fromReg (.byte rm reg) s),
        computes8_of_exec_eq_alu op (.loc (rmLoc8 rm)) (exec_aluRmReg op .toReg (.byte rm reg) s)⟩
  case rmRegWord =>
    exact fun rm reg =>
      ⟨computes16_of_exec_eq_alu op (.loc (.reg reg)) (exec_aluRmReg op .fromReg (.word rm reg) s),
        computes16_of_exec_eq_alu op (.loc (rmLoc16 rm)) (exec_aluRmReg op .toReg (.word rm reg) s)⟩
  case immRmByte => exact fun sx rm v => computes8_of_exec_eq_alu op (.imm v) (exec_aluImmRm op (.byte sx rm v) s)
  case immRmWord => exact fun rm v => computes16_of_exec_eq_alu op (.imm v) (exec_aluImmRm op (.word rm v) s)
  case immRmSignExtended =>
    intro rm v
    rw [← sext16_eq_ofInt]
    exact computes16_of_exec_eq_alu op (.imm (sext16 v)) (exec_aluImmRm op (.wordSx rm v) s)
  case accByte => exact fun v => computes8_of_exec_eq_alu op (.imm v) (exec_aluImmAcc op (.byte v) s)
  case accWord => exact fun v => computes16_of_exec_eq_alu op (.imm v) (exec_aluImmAcc op (.word v) s)

end Sys2Proof.Machine
end

section
/-! PROOFS. The statements of spec/43_branch.md: what the twenty short jumps and loops do (R181) and a taken jump past the end of the image
(R203). -/

namespace Sys2Proof.Machine

/-! ### The branch operation -/

/-- R180: the target by the offset's signed value. -/
theorem branchTarget_eq (ip : Nat) (rel : Byte) : branchTarget ip rel = (ip : Int) + 2 + rel.toInt := by
  rw [branchTarget, signed8_eq]

theorem branch_of_false (byte0 rel : Byte) (s : State) : branch false byte0 rel s = .next (s.advance 2) := rfl

/-- R180: a taken branch with a target that is not negative. -/
theorem branch_of_true (byte0 : Byte) {rel : Byte} {s : State} (h : 0 ≤ (s.ip : Int) + 2 + rel.toInt) :
    branch true byte0 rel s = .next (s.jumpTo ((s.ip : Int) + 2 + rel.toInt).toNat) := by
  rw [← branchTarget_eq] at h ⊢
  rcases branch_cases true byte0 rel s with ⟨-, negative, -⟩ | ⟨-, -, redirected⟩ | ⟨untaken, -⟩
  · omega
  · exact redirected
  · cases untaken

/-- R186, R187, R190, R191: `takenJumps` lists each jump with the condition and the first byte it is executed with. -/
theorem exec_of_mem_takenJumps {rel : Byte} {s : State} {p : Instr × Bool × Byte} (h : p ∈ takenJumps rel s.flags) :
    exec p.1 s = branch p.2.1 p.2.2 rel s := by
  simp only [takenJumps, List.mem_cons, List.not_mem_nil, or_false] at h
  rcases h with rfl | rfl | rfl | rfl <;> rfl

/-! ### The sixteen that are never taken -/

/-- R181: what the jumps that are never taken have in common; `neverTaken_of_mem` ties it to `untakenJumps`. -/
structure NeverTaken (byte0 rel : Byte) (i : Instr) : Prop where
  row : ∃ row, classify byte0 = some row ∧ row.cls = .shortJump ∧ row.kind = .one i.kind
  encode_eq : encode i = [byte0, rel]
  assemble_eq : assemble i.kind [byte0, rel] = i
  operands_eq : operandsOf i = .jump rel
  exec_eq : ∀ s, exec i s = branch false byte0 rel s

theorem neverTaken_of_mem {rel : Byte} {i : Instr} (h : i ∈ untakenJumps rel) : ∃ byte0, NeverTaken byte0 rel i := by
  simp only [untakenJumps, List.mem_cons, List.not_mem_nil, or_false] at h
  rcases h with rfl | rfl | rfl | rfl | rfl | rfl | rfl | rfl | rfl | rfl | rfl | rfl | rfl | rfl | rfl | rfl <;>
    exact ⟨_, ⟨_, rfl, rfl, rfl⟩, rfl, rfl, rfl, fun _ => rfl⟩

/-- R68, R89: the two bytes of a short jump decode by its row of the table. -/
theorem NeverTaken.decode_encode {byte0 rel : Byte} {i : Instr} (h : NeverTaken byte0 rel i) : decode (encode i) = .ok (i, []) := by
  obtain ⟨row, hrow, hcls, hone⟩ := h.row
  have two : lengthOf row.cls byte0 rel = 2 := by rw [hcls]; rfl
  rw [h.encode_eq, decode_of_kind hrow two.le (resolveKind_of_one hone rel), two, List.take_nil, List.drop_nil, h.assemble_eq]

/-- R114, R117: a jump's text is its mnemonic and its signed offset. -/
theorem render_of_jump {rel : Byte} {i : Instr} (h : operandsOf i = .jump rel) :
    render i = mnemonicOf i.kind ++ " " ++ dec rel.toInt := by
  rw [render, h, operandText, signed8_eq]

/-- R182 to R201: the mnemonics, in order. -/
theorem mnemonics_untakenJumps (rel : Byte) : (untakenJumps rel).map (fun i => mnemonicOf i.kind) = untakenMnemonics := rfl

theorem map_render_untakenJumps (rel : Byte) :
    (untakenJumps rel).map render = untakenMnemonics.map (fun m => m ++ " " ++ dec rel.toInt) := by
  rw [← mnemonics_untakenJumps rel, List.map_map]
  refine List.map_congr_left fun i hi => ?_
  obtain ⟨_, jump⟩ := neverTaken_of_mem hi
  exact render_of_jump jump.operands_eq

/-- Settles O21: the sixteen are `NeverTaken`; the other four are executed by `branch` with the condition that `takenJumps` lists. -/
theorem shortJumpsMoveTheInstructionPointer : Obligations.ShortJumpsMoveTheInstructionPointer := by
  refine fun rel s => ⟨fun i hi => ?untaken, map_render_untakenJumps rel,
    fun p hp => ⟨fun off => ?fallsThrough, fun taken notNegative => ?redirects⟩⟩
  case untaken =>
    obtain ⟨byte0, jump⟩ := neverTaken_of_mem hi
    exact ⟨jump.decode_encode, (jump.exec_eq s).trans (branch_of_false byte0 rel s)⟩
  case fallsThrough =>
    rw [exec_of_mem_takenJumps hp, off]
    exact branch_of_false p.2.2 rel s
  case redirects =>
    rw [exec_of_mem_takenJumps hp, taken]
    exact branch_of_true p.2.2 notNegative

/-! ### A taken jump past the end of the image -/

/-- R101: a fetch that decodes is inside the image. -/
theorem ip_lt_length_of_fetch_decoded {s : State} {i : Instr} (h : s.fetch = .decoded i) : s.ip < s.code.length := by
  by_contra past
  cases (fetch_exhausted (not_lt.1 past)).symm.trans h

/-- R122: an instruction that moved `ip` has the `ip` record. -/
theorem ip_mem_changesOf (i : Instr) {s t : State} (moved : t.ip ≠ s.ip) : Change.ip s.ip t.ip ∈ changesOf i s t := by
  simp [changesOf, ipChange, moved]

/-- Settles O40: the target is past `ip`, since the jump itself is inside the image, so `ip` has a record; the step after it finds no
byte. -/
theorem jumpPastTheEndExhausts : Obligations.JumpPastTheEndExhausts := by
  intro rel s p hp taken hr hm hf past
  have inside := ip_lt_length_of_fetch_decoded hf
  obtain ⟨target, htarget⟩ : ∃ n : Nat, (s.ip : Int) + 2 + rel.toInt = n := Int.eq_ofNat_of_zero_le (by omega)
  have hexec : exec p.1 s = .next (s.jumpTo target) := by
    rw [exec_of_mem_takenJumps hp, taken, branch_of_true p.2.2 (by omega), htarget, Int.toNat_natCast]
  have hstep := step_simulate hr hm hf hexec
  rw [retireSimulated_running s p.1 (t := s.jumpTo target) hr] at hstep
  refine ⟨_, _, hstep, hr, htarget.symm, rfl, rfl, ip_mem_changesOf p.1 ?moved, step_exhausted hr ?ended⟩
  case moved =>
    rw [jumpTo_ip]
    omega
  case ended =>
    show s.code.length ≤ target
    omega

end Sys2Proof.Machine
end

section
/-! PROOFS. The statements of spec/60_exceptions.md on the decode errors: `UnsupportedEncoding` (R211). -/

namespace Sys2Proof.Machine

/-! ### What the decoder rejects -/

/-- R72: no row of the table matches a byte of the rejected ranges. -/
theorem classify_of_rejectedFirst {b : Byte} (h : rejectedFirst b) : classify b = none := by
  unfold rejectedFirst at h
  revert b
  decide

/-- R72: a rejected first byte, whatever follows it. -/
theorem decode_of_rejectedFirst {b0 : Byte} (rejected : rejectedFirst b0) (x : List Byte) :
    decode (b0 :: x) = .error (.unsupported b0 none) := by
  simp only [decode, classify_of_rejectedFirst rejected]

/-- R71: the five sub-opcodes of the group 80 to 83 that no kind has. -/
theorem resolveKind_aluRow_unassigned {b1 : Byte} (h : ((b1 >>> 3) &&& 7#8) ∈ [0b001#8, 0b010#8, 0b011#8, 0b100#8, 0b110#8]) :
    resolveKind aluRow b1 = none := by
  refine (resolveOp3_regField b1).trans ?_
  simp only [List.mem_cons, List.not_mem_nil, or_false] at h
  rcases h with op3 | op3 | op3 | op3 | op3 <;> rw [op3] <;> rfl

/-! ### The step that ends in the error -/

/-- R211: the bytes of the decode error stand in the context beside the step's own `ip`. -/
theorem step_unsupported {s : State} {b0 : Byte} {b1 : Option Byte} (hr : s.status = .running)
    (hdec : decode (s.code.drop s.ip) = .error (.unsupported b0 b1)) :
    step s = .next (s.raise .unsupportedEncoding { ip := s.ip, byte0 := b0, byte1 := b1 }) :=
  step_failed hr (by rw [State.fetch, hdec])

/-- R211: no row matches the first byte, in either mode. -/
theorem step_rejectedFirst {s : State} {b0 : Byte} {x : List Byte} (hr : s.status = .running) (bytes : s.code.drop s.ip = b0 :: x)
    (rejected : rejectedFirst b0) : step s = .next (s.raise .unsupportedEncoding { ip := s.ip, byte0 := b0 }) :=
  step_unsupported hr (bytes ▸ decode_of_rejectedFirst rejected x)

/-- R211, R71: all bytes of an instruction 80 to 83 are there and its sub-opcode is unassigned, in either mode. -/
theorem step_unassignedSubOpcode {s : State} {b0 b1 : Byte} {x : List Byte} (hr : s.status = .running)
    (bytes : s.code.drop s.ip = b0 :: b1 :: x) (low : 0x80 ≤ b0.toNat) (high : b0.toNat ≤ 0x83)
    (complete : lengthOf .immToRegMemAlu b0 b1 ≤ x.length + 2)
    (unassigned : ((b1 >>> 3) &&& 7#8) ∈ [0b001#8, 0b010#8, 0b011#8, 0b100#8, 0b110#8]) :
    step s = .next (s.raise .unsupportedEncoding { ip := s.ip, byte0 := b0, byte1 := some b1 }) :=
  step_unsupported hr
    (bytes ▸ decode_of_no_kind (classify_eq_aluRow b0 low high) complete (resolveKind_aluRow_unassigned unassigned))

/-- Settles O30: `step_rejectedFirst` and `step_unassignedSubOpcode`; the two examples are an instance of each. -/
theorem unsupportedEncodingEndsTheRun : Obligations.UnsupportedEncodingEndsTheRun := by
  refine ⟨fun s b0 x hr bytes rejected => step_rejectedFirst hr bytes rejected,
    fun s b0 b1 x hr bytes low high complete unassigned => step_unassignedSubOpcode hr bytes low high complete unassigned,
    fun mode => ?rejectedExample, fun mode => ?subOpcodeExample⟩
  case rejectedExample =>
    have rejected : rejectedFirst 0x90 := by
      unfold rejectedFirst
      decide
    exact step_rejectedFirst (start_status [0x90] mode) rfl rejected
  case subOpcodeExample =>
    have complete : lengthOf .immToRegMemAlu 0x80 0xC8 ≤ [(0x05 : Byte)].length + 2 := by decide
    exact step_unassignedSubOpcode (start_status [0x80, 0xC8, 0x05] mode) rfl (by decide) (by decide) complete (by decide)

end Sys2Proof.Machine
end

section
/-! PROOFS. The statements of spec/30_encoding.md on the two directions of the encoding: what is encoded decodes to itself, and what
decodes is the encoding of what it decodes to. -/

namespace Sys2Proof.Machine

/-! ### What an encoding decodes to -/

/-- R66: an encoding has two bytes or more. -/
theorem exists_encode_eq (i : Instr) : ∃ b0 b1 tl, encode i = b0 :: b1 :: tl := by
  obtain ⟨hlen, two, -⟩ := encodeLength i
  match h : encode i with
  | [] | [_] => rw [h] at hlen; simp only [List.length_nil, List.length_cons] at hlen; omega
  | b0 :: b1 :: tl => exact ⟨b0, b1, tl, rfl⟩

/-- R68, R71: the first two bytes of an encoding give the instruction's kind. -/
def NamesKind (i : Instr) : Prop :=
  ∃ row, classify (byteAt (encode i) 0) = some row ∧ resolveKind row (byteAt (encode i) 1) = some i.kind

/-- An instruction whose first two bytes give its kind, and whose bytes assemble to it, is what its encoding decodes to: the length of the
encoding is the length by bits. -/
theorem decode_encode_append {i : Instr} (named : NamesKind i) (assembled : assemble i.kind (encode i) = i) (rest : List Byte) :
    decode (encode i ++ rest) = .ok (i, rest) := by
  obtain ⟨row, hrow, hk⟩ := named
  obtain ⟨b0, b1, tl, he⟩ := exists_encode_eq i
  have hlen : tl.length + 2 = i.length := by rw [← length_encode, he]; rfl
  have whole : lengthOf row.cls b0 b1 = tl.length + 2 := by
    rw [cls_eq_classOf (classify_mem hrow).1 hk, hlen, ← assembled, length_assemble, assembled, he]
    rfl
  rw [he, byteAt_zero] at hrow
  rw [he] at hk assembled ⊢
  have fits : lengthOf row.cls b0 b1 ≤ (tl ++ rest).length + 2 := by rw [whole, List.length_append]; omega
  refine (decode_of_kind hrow fits hk).trans ?_
  rw [whole, Nat.add_sub_cancel, List.take_left, List.drop_left, assembled]

/-- R68: what the table says of a first byte. -/
def rowKind (b0 : Byte) : Option RowKind := (classify b0).map EncRow.kind

theorem namesKind_of_one {i : Instr} (h : rowKind (byteAt (encode i) 0) = some (.one i.kind)) : NamesKind i := by
  obtain ⟨row, hrow, hone⟩ := Option.map_eq_some_iff.1 h
  exact ⟨row, hrow, resolveKind_of_one hone _⟩

theorem namesKind_of_op3 {i : Instr} (h : rowKind (byteAt (encode i) 0) = some .aluByOp3)
    (hop : resolveOp3 (regField (byteAt (encode i) 1)) = some i.kind) : NamesKind i := by
  obtain ⟨row, hrow, hkind⟩ := Option.map_eq_some_iff.1 h
  exact ⟨row, hrow, by rw [resolveKind, hkind]; exact hop⟩

/-! The first bytes, format by format. -/

theorem rowKind_encode_rmReg {op : BitVec 6} {k : Kind} (h : ∀ d w : BitVec 1, rowKind (op ++ d ++ w) = some (.one k)) (d : Dir)
    (o : RmReg) : rowKind (byteAt (o.encode op d) 0) = some (.one k) := by cases o <;> exact h d.bit _

theorem rowKind_encode_accImm {op : BitVec 7} {k : Kind} (h : ∀ w : BitVec 1, rowKind (op ++ w) = some (.one k)) (o : AccImm) :
    rowKind (byteAt (o.encode op) 0) = some (.one k) := by cases o <;> exact h _

theorem rowKind_encode_rmImm (g : BitVec 3) (o : RmImm) : rowKind (byteAt (o.encode g) 0) = some (.one .movImmRm) := by
  have first : ∀ w : BitVec 1, rowKind (0b1100011#7 ++ w) = some (.one .movImmRm) := by decide
  cases o <;> exact first _

theorem rowKind_encode_regImm (o : RegImm) : rowKind (byteAt o.encode 0) = some (.one .movImmReg) := by
  have first : ∀ (w : BitVec 1) (r : BitVec 3), rowKind (0b1011#4 ++ w ++ r) = some (.one .movImmReg) := by decide
  cases o <;> exact first _ _

theorem rowKind_encode_rmImmAlu (op3 : BitVec 3) (o : RmImmAlu) : rowKind (byteAt (o.encode op3) 0) = some .aluByOp3 := by
  have first : ∀ s w : BitVec 1, rowKind (0b100000#6 ++ s ++ w) = some .aluByOp3 := by decide
  cases o <;> exact first _ _

theorem regField_encode_rmImmAlu (op3 : BitVec 3) (o : RmImmAlu) : regField (byteAt (o.encode op3) 1) = op3 := by
  cases o <;> exact regField_encode _ op3 _ _ _

theorem namesKind (i : Instr) : NamesKind i := by
  cases i
  case movRmReg d o => exact namesKind_of_one (rowKind_encode_rmReg (k := .movRmReg) (by decide) d o)
  case addRmReg d o => exact namesKind_of_one (rowKind_encode_rmReg (k := .addRmReg) (by decide) d o)
  case subRmReg d o => exact namesKind_of_one (rowKind_encode_rmReg (k := .subRmReg) (by decide) d o)
  case cmpRmReg d o => exact namesKind_of_one (rowKind_encode_rmReg (k := .cmpRmReg) (by decide) d o)
  case movImmReg o => exact namesKind_of_one (rowKind_encode_regImm o)
  case movImmRm g o => exact namesKind_of_one (rowKind_encode_rmImm g o)
  case addImmAcc o => exact namesKind_of_one (rowKind_encode_accImm (k := .addImmAcc) (by decide) o)
  case subImmAcc o => exact namesKind_of_one (rowKind_encode_accImm (k := .subImmAcc) (by decide) o)
  case cmpImmAcc o => exact namesKind_of_one (rowKind_encode_accImm (k := .cmpImmAcc) (by decide) o)
  case movMemAcc w a | movAccMem w a =>
    refine namesKind_of_one ?_
    simp only [encode, byteAt_zero, Instr.kind]
    cases w <;> decide
  case addImmRm o | subImmRm o | cmpImmRm o =>
    exact namesKind_of_op3 (rowKind_encode_rmImmAlu _ o) (by rw [encode, regField_encode_rmImmAlu]; rfl)
  all_goals
    refine namesKind_of_one ?_
    simp only [encode, byteAt_zero, Instr.kind]
    decide

/-- R77 to R89: operand assembly reads back what the encoder wrote. -/
theorem assemble_encode {i : Instr} (hw : i.wf = true) : assemble i.kind (encode i) = i := by
  cases i
  case movRmReg d o | addRmReg d o | subRmReg d o | cmpRmReg d o =>
    have readBack := fun op : BitVec 6 => rmRegOperands_encode op d o hw
    simp only [Instr.kind, encode, assemble, readBack]
  case movRmSreg g sr rm | movSregRm g sr rm =>
    have operand := fun b0 => rmOperand_encode (g ++ sr.code) rm reg16Of_code hw b0 []
    simp only [List.append_nil] at operand
    simp only [Instr.kind, encode, assemble, sr_encode, operand]
  case movImmReg o => exact congrArg Instr.movImmReg (regImmOperands_encode o)
  case movImmRm g o =>
    simp only [Instr.kind, encode, assemble, rmImmOperands_encode g o hw]
  case addImmRm o | subImmRm o | cmpImmRm o => simp only [Instr.kind, encode, assemble, rmImmAluOperands_encode _ o hw]
  case addImmAcc o | subImmAcc o | cmpImmAcc o => simp only [Instr.kind, encode, assemble, accImmOperands_encode]
  case movMemAcc w a | movAccMem w a =>
    simp only [Instr.kind, encode, assemble, wordAt, wordBytes, byteAt_zero, byteAt_succ, bit_append, wordOf_bytes]
    cases w <;> rfl
  all_goals rfl

/-- Settles O2: the encoding's first two bytes give the kind, the length by bits is its length, and assembly reads the operands back. -/
theorem encodedInstructionDecodesToItself : Obligations.EncodedInstructionDecodesToItself :=
  fun i rest hw => decode_encode_append (namesKind i) (assemble_encode hw) rest

/-! ### What decodes is an encoding -/

/-- R64: a byte is its opcode bits and the bits after them. -/
theorem opcode_append_two (b : Byte) : b.extractLsb' 2 6 ++ (dirOf (b.getLsbD 1)).bit ++ (widthOf (b.getLsbD 0)).bit = b := by
  revert b; decide

theorem opcode_append_sign (b : Byte) : b.extractLsb' 2 6 ++ BitVec.ofBool (b.getLsbD 1) ++ (widthOf (b.getLsbD 0)).bit = b := by
  revert b; decide

theorem opcode_append_one (b : Byte) : b.extractLsb' 1 7 ++ (widthOf (b.getLsbD 0)).bit = b := by revert b; decide

theorem opcode_append_reg (b : Byte) : b.extractLsb' 4 4 ++ (widthOf (b.getLsbD 3)).bit ++ rmField b = b := by revert b; decide

/-- R69: a row that matches a byte gives the byte's opcode bits. -/
theorem opcode_of_hits {b : Byte} {row : EncRow} (hits : row.hits b = true) :
    (row.len = 8 → b = row.pattern) ∧ (row.len = 7 → b.extractLsb' 1 7 = row.pattern.extractLsb' 1 7) ∧
    (row.len = 6 → b.extractLsb' 2 6 = row.pattern.extractLsb' 2 6) ∧
    (row.len = 4 → b.extractLsb' 4 4 = row.pattern.extractLsb' 4 4) := by
  have masked : ∀ b : Byte, b &&& (0xFF#8 <<< 0) = b ∧ (b &&& (0xFF#8 <<< 1)).extractLsb' 1 7 = b.extractLsb' 1 7 ∧
      (b &&& (0xFF#8 <<< 2)).extractLsb' 2 6 = b.extractLsb' 2 6 ∧ (b &&& (0xFF#8 <<< 4)).extractLsb' 4 4 = b.extractLsb' 4 4 := by
    decide
  obtain ⟨all, seven, six, four⟩ := masked b
  rw [← eq_of_beq hits, EncRow.mask]
  exact ⟨fun h => by rw [h]; exact all.symm, fun h => by rw [h]; exact seven.symm, fun h => by rw [h]; exact six.symm,
    fun h => by rw [h]; exact four.symm⟩

/-- The bytes of an assembled instruction are its encoding, and it is well-formed. -/
def ReadsBack (k : Kind) (bytes : List Byte) : Prop :=
  (assemble k bytes).wf = true ∧ encode (assemble k bytes) = bytes

section

variable {b0 b1 : Byte} {y : List Byte}

/-- R64, R77, R78, R83: the r/m operand read from enough bytes encodes to the mod-reg-rm byte and the displacement. -/
theorem encode_rmOperand {ρ : Type} {code : ρ → BitVec 3} {reg : BitVec 3 → ρ} (hd : ∀ c, code (reg c) = c)
    (enough : dispBytesOf b1 ≤ y.length) :
    (rmOperand reg (b0 :: b1 :: y)).wf = true ∧
      (rmOperand reg (b0 :: b1 :: y)).encode code (regField b1) = b1 :: y.take (dispBytesOf b1) := by
  rw [dispBytesOf_eq_dispLen] at enough ⊢
  obtain ⟨rm, same, hw, -, bytes⟩ := rmOperand_of_bytes hd b0 b1 y enough
  have whole := same (y.length - dispLen (modField b1) (rmField b1))
  rw [Nat.add_sub_of_le enough, List.take_length] at whole
  rw [whole]
  exact ⟨hw, bytes⟩

/-- R65: an r/m operand that ends the instruction. -/
theorem encode_last_rmOperand {ρ : Type} {code : ρ → BitVec 3} {reg : BitVec 3 → ρ} (hd : ∀ c, code (reg c) = c)
    (hlen : y.length = dispBytesOf b1) :
    (rmOperand reg (b0 :: b1 :: y)).wf = true ∧ (rmOperand reg (b0 :: b1 :: y)).encode code (regField b1) = b1 :: y := by
  have h := encode_rmOperand (b0 := b0) hd hlen.ge
  rwa [← hlen, List.take_length] at h

/-- R79: where the immediate stands, counted from the byte after the mod-reg-rm byte. -/
theorem byteAt_immOffset_add (k : Nat) :
    byteAt (b0 :: b1 :: y) (immOffset (b0 :: b1 :: y) + k) = byteAt y (dispBytesOf b1 + k) := by
  rw [dispBytesOf_eq_dispLen, immOffset, byteAt_succ, byteAt_zero, Nat.add_assoc, Nat.add_comm 2, byteAt_succ, byteAt_succ]

/-- R49: the two bytes of a word, read back and written out. -/
theorem wordBytes_wordOf (lo hi : Byte) : wordBytes (wordOf lo hi) = [lo, hi] := by rw [wordBytes, loByte_wordOf, hiByte_wordOf]

theorem take_append_byteAt {d : Nat} (h : d < y.length) : y.take d ++ [byteAt y d] = y.take (d + 1) := by
  rw [byteAt, List.getD_eq_getElem y 0 h, List.take_concat_get']

section

variable {ρ : Type} {code : ρ → BitVec 3} {reg : BitVec 3 → ρ} (hd : ∀ c, code (reg c) = c)
include hd

/-- R65, R79: an r/m operand and a byte immediate that end the instruction. -/
theorem encode_rmOperand_imm8 (h : y.length = dispBytesOf b1 + 1) :
    (rmOperand reg (b0 :: b1 :: y)).wf = true ∧ (rmOperand reg (b0 :: b1 :: y)).encode code (regField b1) ++
      [byteAt (b0 :: b1 :: y) (immOffset (b0 :: b1 :: y))] = b1 :: y := by
  obtain ⟨hw, bytes⟩ := encode_rmOperand (b0 := b0) (b1 := b1) (y := y) hd (by omega)
  refine ⟨hw, ?_⟩
  rw [bytes, List.cons_append, ← Nat.add_zero (immOffset _), byteAt_immOffset_add, Nat.add_zero, take_append_byteAt (by omega), ← h,
    List.take_length]

/-- R65, R79: an r/m operand and a word immediate that end the instruction. -/
theorem encode_rmOperand_imm16 (h : y.length = dispBytesOf b1 + 2) :
    (rmOperand reg (b0 :: b1 :: y)).wf = true ∧ (rmOperand reg (b0 :: b1 :: y)).encode code (regField b1) ++
      wordBytes (wordAt (b0 :: b1 :: y) (immOffset (b0 :: b1 :: y))) = b1 :: y := by
  obtain ⟨hw, bytes⟩ := encode_rmOperand (b0 := b0) (b1 := b1) (y := y) hd (by omega)
  refine ⟨hw, ?_⟩
  rw [bytes, List.cons_append, wordAt, wordBytes_wordOf, byteAt_immOffset_add, ← Nat.add_zero (immOffset _), byteAt_immOffset_add,
    Nat.add_zero, List.append_cons, take_append_byteAt (by omega), take_append_byteAt (by omega), ← h, List.take_length]

end

/-- R65 format RM. -/
theorem encode_rmRegOperands {op : BitVec 6} (hop : b0.extractLsb' 2 6 = op) (hlen : y.length + 2 = lengthOf .regMem b0 b1) :
    (rmRegOperands (b0 :: b1 :: y)).wf = true ∧
      (rmRegOperands (b0 :: b1 :: y)).encode op (dirOf (b0.getLsbD 1)) = b0 :: b1 :: y := by
  have first := opcode_append_two b0
  rw [hop] at first
  replace hlen : y.length = dispBytesOf b1 := by simp only [lengthOf] at hlen; omega
  obtain ⟨wf8, bytes8⟩ := encode_last_rmOperand (b0 := b0) code_reg8Of hlen
  obtain ⟨wf16, bytes16⟩ := encode_last_rmOperand (b0 := b0) code_reg16Of hlen
  unfold rmRegOperands
  rw [byteAt_succ, byteAt_zero, byteAt_zero]
  cases hw : widthOf (b0.getLsbD 0) <;> rw [hw] at first
  case byte => exact ⟨wf8, congr (congrArg List.cons first) (by rw [code_reg8Of, bytes8])⟩
  case word => exact ⟨wf16, congr (congrArg List.cons first) (by rw [code_reg16Of, bytes16])⟩

/-- R65 format IRM-MOV. -/
theorem encode_rmImmOperands (hop : b0.extractLsb' 1 7 = 0b1100011#7) (hlen : y.length + 2 = lengthOf .immToRegMemMov b0 b1) :
    (rmImmOperands (b0 :: b1 :: y)).wf = true ∧ (rmImmOperands (b0 :: b1 :: y)).encode (regField b1) = b0 :: b1 :: y := by
  have first := opcode_append_one b0
  rw [hop] at first
  simp only [lengthOf, toNat_and_one] at hlen
  unfold rmImmOperands
  rw [byteAt_zero]
  cases hw : b0.getLsbD 0 <;> rw [hw] at first hlen
  case false =>
    obtain ⟨wf, bytes⟩ := encode_rmOperand_imm8 (b0 := b0) (b1 := b1) (y := y) code_reg8Of (by simp at hlen; omega)
    exact ⟨wf, congr (congrArg List.cons first) bytes⟩
  case true =>
    obtain ⟨wf, bytes⟩ := encode_rmOperand_imm16 (b0 := b0) (b1 := b1) (y := y) code_reg16Of (by simp at hlen; omega)
    exact ⟨wf, congr (congrArg List.cons first) bytes⟩

/-- R65 format IRM-ALU. -/
theorem encode_rmImmAluOperands (hop : b0.extractLsb' 2 6 = 0b100000#6) (hlen : y.length + 2 = lengthOf .immToRegMemAlu b0 b1) :
    (rmImmAluOperands (b0 :: b1 :: y)).wf = true ∧ (rmImmAluOperands (b0 :: b1 :: y)).encode (regField b1) = b0 :: b1 :: y := by
  have first := opcode_append_sign b0
  rw [hop] at first
  simp only [lengthOf, and_three_eq_one] at hlen
  unfold rmImmAluOperands
  rw [byteAt_zero]
  cases hw : b0.getLsbD 0 <;> rw [hw] at first hlen
  case false =>
    obtain ⟨wf, bytes⟩ := encode_rmOperand_imm8 (b0 := b0) (b1 := b1) (y := y) code_reg8Of (by simp at hlen; omega)
    exact ⟨wf, congr (congrArg List.cons first) bytes⟩
  case true =>
    cases hs : b0.getLsbD 1 <;> rw [hs] at first hlen
    case false =>
      obtain ⟨wf, bytes⟩ := encode_rmOperand_imm16 (b0 := b0) (b1 := b1) (y := y) code_reg16Of (by simp at hlen; omega)
      exact ⟨wf, congr (congrArg List.cons first) bytes⟩
    case true =>
      obtain ⟨wf, bytes⟩ := encode_rmOperand_imm8 (b0 := b0) (b1 := b1) (y := y) code_reg16Of (by simp at hlen; omega)
      exact ⟨wf, congr (congrArg List.cons first) bytes⟩

/-- R65 format IR. -/
theorem encode_regImmOperands (hop : b0.extractLsb' 4 4 = 0b1011#4) (hlen : y.length + 2 = lengthOf .immToReg b0 b1) :
    (regImmOperands (b0 :: b1 :: y)).encode = b0 :: b1 :: y := by
  have first := opcode_append_reg b0
  rw [hop] at first
  simp only [lengthOf, toNat_and_one, BitVec.getLsbD_ushiftRight, Nat.add_zero] at hlen
  unfold regImmOperands
  rw [byteAt_zero]
  cases hw : b0.getLsbD 3 with
  | false =>
    rw [hw] at first hlen
    obtain rfl : y = [] := by simpa using hlen
    rw [← code_reg8Of (rmField b0)] at first
    exact congrArg (· :: [b1]) first
  | true =>
    rw [hw] at first hlen
    obtain ⟨b2, rfl⟩ := List.length_eq_one_iff.1 (show y.length = 1 by simpa using hlen)
    rw [← code_reg16Of (rmField b0)] at first
    exact congr (congrArg List.cons first) (wordBytes_wordOf b1 b2)

/-- R65 format AI. -/
theorem encode_accImmOperands {op : BitVec 7} (hop : b0.extractLsb' 1 7 = op) (hlen : y.length + 2 = lengthOf .accImm b0 b1) :
    (accImmOperands (b0 :: b1 :: y)).encode op = b0 :: b1 :: y := by
  have first := opcode_append_one b0
  rw [hop] at first
  simp only [lengthOf, toNat_and_one] at hlen
  unfold accImmOperands
  rw [byteAt_zero]
  cases hw : b0.getLsbD 0 with
  | false =>
    rw [hw] at first hlen
    obtain rfl : y = [] := by simpa using hlen
    exact congrArg (· :: [b1]) first
  | true =>
    rw [hw] at first hlen
    obtain ⟨b2, rfl⟩ := List.length_eq_one_iff.1 (show y.length = 1 by simpa using hlen)
    exact congr (congrArg List.cons first) (wordBytes_wordOf b1 b2)

/-- R65: a width bit and a direct address. -/
theorem encode_memAcc {op : BitVec 7} (hop : b0.extractLsb' 1 7 = op) (hlen : y.length + 2 = lengthOf .memAcc b0 b1) :
    (op ++ (widthOf (b0.getLsbD 0)).bit) :: wordBytes (wordAt (b0 :: b1 :: y) 1) = b0 :: b1 :: y := by
  have first := opcode_append_one b0
  rw [hop] at first
  obtain ⟨b2, rfl⟩ := List.length_eq_one_iff.1 (Nat.add_right_cancel hlen : y.length = 1)
  exact congr (congrArg List.cons first) (wordBytes_wordOf b1 b2)

/-- R71: the three sub-opcodes. -/
theorem op3_of_resolveOp3 {op3 : BitVec 3} {k : Kind} (h : resolveOp3 op3 = some k) :
    (k = .addImmRm ∧ op3 = 0b000#3) ∨ (k = .subImmRm ∧ op3 = 0b101#3) ∨ (k = .cmpImmRm ∧ op3 = 0b111#3) := by
  revert op3 k; decide

theorem readsBack_of_op3 {k : Kind} (hop : b0.extractLsb' 2 6 = 0b100000#6) (hlen : y.length + 2 = lengthOf .immToRegMemAlu b0 b1)
    (hk : resolveOp3 (regField b1) = some k) : ReadsBack k (b0 :: b1 :: y) := by
  obtain ⟨hw, bytes⟩ := encode_rmImmAluOperands hop hlen
  rcases op3_of_resolveOp3 hk with ⟨rfl, op3⟩ | ⟨rfl, op3⟩ | ⟨rfl, op3⟩ <;>
  · rw [op3] at bytes
    exact ⟨hw, bytes⟩

variable {row : EncRow} {k : Kind} (hits : row.hits b0 = true) (hk : resolveKind row b1 = some k)
  (hlen : y.length + 2 = lengthOf row.cls b0 b1)
include hits hk hlen

/-- R68 rows 1 and 2. -/
theorem readsBack_of_mem_seg (hrow : row ∈ encodingRowsSeg) : ReadsBack k (b0 :: b1 :: y) := by
  simp only [encodingRowsSeg, List.mem_cons, List.not_mem_nil, or_false] at hrow
  have operand := encode_last_rmOperand (b0 := b0) (b1 := b1) (y := y) code_reg16Of
  rcases hrow with rfl | rfl <;>
  · obtain rfl := (opcode_of_hits hits).1 rfl
    obtain rfl := Option.some.inj hk
    obtain ⟨hw, bytes⟩ := operand (by simp only [lengthOf] at hlen; omega)
    refine ⟨hw, ?_⟩
    simp only [assemble, encode, byteAt_succ, byteAt_zero, code_sregOf, append_sr, bytes]

/-- R68 rows 3 to 22. -/
theorem readsBack_of_mem_jump (hrow : row ∈ encodingRowsJump) : ReadsBack k (b0 :: b1 :: y) := by
  simp only [encodingRowsJump, List.mem_cons, List.not_mem_nil, or_false] at hrow
  rcases hrow with rfl | rfl | rfl | rfl | rfl | rfl | rfl | rfl | rfl | rfl | rfl | rfl | rfl | rfl | rfl | rfl | rfl | rfl | rfl | rfl <;>
  · obtain rfl := (opcode_of_hits hits).1 rfl
    obtain rfl := Option.some.inj hk
    obtain rfl := List.eq_nil_of_length_eq_zero (Nat.add_right_cancel hlen : y.length = 0)
    exact ⟨rfl, rfl⟩

/-- R68 rows 23 to 34. -/
theorem readsBack_of_mem_short (hrow : row ∈ encodingRowsShort) : ReadsBack k (b0 :: b1 :: y) := by
  simp only [encodingRowsShort, List.mem_cons, List.not_mem_nil, or_false] at hrow
  obtain ⟨-, seven, six, four⟩ := opcode_of_hits hits
  rcases hrow with rfl | rfl | rfl | rfl | rfl | rfl | rfl | rfl | rfl | rfl | rfl | rfl
  pick_goal 11
  · exact readsBack_of_op3 (six rfl) hlen hk
  all_goals obtain rfl := Option.some.inj hk
  · exact encode_rmImmOperands (seven rfl) hlen
  · exact ⟨rfl, encode_memAcc (seven rfl) hlen⟩
  · exact ⟨rfl, encode_memAcc (seven rfl) hlen⟩
  · exact ⟨rfl, encode_accImmOperands (seven rfl) hlen⟩
  · exact ⟨rfl, encode_accImmOperands (seven rfl) hlen⟩
  · exact ⟨rfl, encode_accImmOperands (seven rfl) hlen⟩
  · exact encode_rmRegOperands (six rfl) hlen
  · exact encode_rmRegOperands (six rfl) hlen
  · exact encode_rmRegOperands (six rfl) hlen
  · exact encode_rmRegOperands (six rfl) hlen
  · exact ⟨rfl, encode_regImmOperands (four rfl) hlen⟩

end

/-- Settles O3: the bytes are those of the row that matched (`opcode_of_hits`) and the operands read from them encode to them again, format
by format. -/
theorem decodedBytesAreTheEncoding : Obligations.DecodedBytesAreTheEncoding := by
  intro bs rest i h
  obtain ⟨b0, b1, x, rfl⟩ := two_bytes_of_decode h
  obtain ⟨row, k, d⟩ := decoded_of_decode h
  obtain ⟨hmem, hits⟩ := classify_mem d.row_eq
  have hlen : (x.take (lengthOf row.cls b0 b1 - 2)).length + 2 = lengthOf row.cls b0 b1 := by
    have bound := (lengthOf_bounds row.cls b0 b1).1
    have fits := d.fits
    rw [List.length_take]
    omega
  have back : ReadsBack k (b0 :: b1 :: x.take (lengthOf row.cls b0 b1 - 2)) := by
    rw [encodingTable, List.mem_append, List.mem_append] at hmem
    rcases hmem with (hrow | hrow) | hrow
    · exact readsBack_of_mem_seg hits d.kind_eq hlen hrow
    · exact readsBack_of_mem_jump hits d.kind_eq hlen hrow
    · exact readsBack_of_mem_short hits d.kind_eq hlen hrow
  obtain ⟨hw, bytes⟩ := back
  rw [← d.instr_eq] at hw bytes
  rw [bytes, d.rest_eq]
  exact ⟨hw, by simp⟩

end Sys2Proof.Machine
end

section
/-! PROOFS. The statements of spec/30_encoding.md on the encoding table (R68 to R72), the bounds of a length (R66), and the ignored bits
(R84, R85). -/

namespace Sys2Proof.Machine

/-- Settles O1: the decoder is run on each of the ten byte strings. -/
theorem writtenWordsDecode : Obligations.WrittenWordsDecode := by
  unfold Obligations.WrittenWordsDecode
  decide

/-- Settles O6: what a decode consumes is the instruction's length, and every instruction is 2 to 6 bytes long (`encodeLength`). -/
theorem lengthsAreTwoToSix : Obligations.LengthsAreTwoToSix := by
  refine ⟨fun bs rest i h => ?bounds, ⟨.jo 0x00, rfl⟩, ⟨.addImmRm (.word (.mem (.direct 1000)) 10000), rfl⟩⟩
  case bounds =>
    have parts := length_of_decode h
    obtain ⟨-, least, most⟩ := encodeLength i
    omega

/-- R70: the Classifier's first match is the only one. -/
theorem classify_of_hits : ∀ b : Byte, ∀ r ∈ encodingTable, r.hits b = true → classify b = some r := by decide

/-- Settles O7: two rows that match one byte are both what the Classifier answers. -/
theorem encodingRowsAreDisjoint : Obligations.EncodingRowsAreDisjoint :=
  ⟨rfl, fun b r hr q hq hitsR hitsQ => Option.some.inj ((classify_of_hits b r hr hitsR).symm.trans (classify_of_hits b q hq hitsQ))⟩

/-- R72: outside the ten ranges some row matches. -/
theorem rejectedFirst_of_classify {b : Byte} (h : classify b = none) : rejectedFirst b := by
  unfold rejectedFirst
  revert b
  decide

/-- Settles O8: both directions, over every byte. -/
theorem rejectedFirstBytes : Obligations.RejectedFirstBytes := fun _ => ⟨rejectedFirst_of_classify, classify_of_rejectedFirst⟩

/-- Settles O11: the operand roles, the length and the kind, which are all that `exec` and `render` read, do not hold the ignored bits. -/
theorem ignoredBitsHaveNoEffect : Obligations.IgnoredBitsHaveNoEffect :=
  ⟨fun _ _ _ _ => ⟨rfl, rfl⟩, fun _ _ _ _ _ => ⟨rfl, rfl⟩, fun _ _ _ _ _ => ⟨rfl, rfl⟩⟩

end Sys2Proof.Machine
end

section
/-! PROOFS. What every step keeps (spec/60_exceptions.md section 1, spec/10_state.md section 6, spec/20_memory.md sections 1, 2 and 6): the
precision of errors, the inputs, and the machine invariant. -/

namespace Sys2Proof.Machine

/-! ### Errors -/

/-- R211, R212, R215: a fetch that fails names its own `ip`, and its error is one of the two decode errors. -/
theorem context_of_fetch_failed {s : State} {k : ErrorKind} {c : Context} (h : s.fetch = .failed k c) :
    c.ip = s.ip ∧ k ≠ .invalidOperandCombination := by
  rcases fetch_cases s with ⟨-, hf⟩ | ⟨_, _, -, hf⟩ | ⟨_, _, _, -, hf⟩ | ⟨_, _, -, -, hf⟩ <;> rw [h] at hf <;> cases hf
  · exact ⟨rfl, nofun⟩
  · exact ⟨rfl, nofun⟩

/-- R217, R219: a step that ends in an error is that error's `raise` at its own `ip`. -/
theorem raise_of_step_error {s t : State} {k : ErrorKind} {c : Context} (h : step s = .next t) (error : t.status = .error k c) :
    t = s.raise k c ∧ c.ip = s.ip ∧ k ≠ .invalidOperandCombination := by
  obtain ⟨hr, ⟨-, ht⟩ | ⟨k', c', hf, ht⟩ | ⟨i, -, -, ht⟩ | ⟨i, u, -, -, hx, ht⟩⟩ := step_cases h
  · rw [ht] at error; cases error
  · rw [ht] at error; cases error
    exact ⟨ht, context_of_fetch_failed hf⟩
  · rw [ht] at error; cases hr.symm.trans error
  · rw [ht, retireSimulated_status] at error
    rw [retireSimulated_ended s i (by simp [error])] at ht
    rcases exec_status hx with kept | ⟨c', hraise, hip⟩
    · cases hr.symm.trans (kept.symm.trans error)
    · rw [hraise] at error; cases error
      exact ⟨ht.trans hraise, hip, nofun⟩

/-- Settles O32: `raise` is the change of the status alone. -/
theorem errorsArePrecise : Obligations.ErrorsArePrecise := by
  intro s t k c h error
  obtain ⟨ht, hip, -⟩ := raise_of_step_error h error
  exact ⟨ht, hip⟩

/-- Settles O33: an error in the status after a step is one `raise_of_step_error` allows. -/
theorem invalidOperandCombinationIsNeverRaised : Obligations.InvalidOperandCombinationIsNeverRaised := by
  intro s t c h error
  obtain ⟨-, -, never⟩ := raise_of_step_error h error
  exact never rfl

/-! ### Steps that complete and steps that end the run -/

/-- R101, R217: a step that ends the run changes the run status alone. -/
theorem eq_of_step_ended {s t : State} (h : step s = .next t) (ended : t.status ≠ .running) : t = { s with status := t.status } := by
  rcases exhaust_or_raise_of_step_ended h ended with ⟨-, rfl⟩ | ⟨k, c, rfl⟩ <;> rfl

/-- R103, R106: what a completed `Disassemble` step did. -/
def DisassembledTo (i : Instr) (s t : State) : Prop := s.mode = .disassemble ∧ t = s.retireDisassembled i

/-- R103, R107: what a completed `Simulate` step did: the execution to `u` and the outputs. -/
def SimulatedTo (i : Instr) (s t : State) : Prop :=
  s.mode = .simulate ∧ ∃ u, exec i s = .next u ∧ u.status = .running ∧
    t = { u with lines := s.lines ++ [render i ++ annotation (changesOf i s u)], changes := s.changes ++ [changesOf i s u] }

/-- R103: a completed step fetched an instruction and committed it by its mode. -/
theorem completed_cases {s t : State} (h : step s = .next t) (completed : t.status = .running) :
    ∃ i, s.fetch = .decoded i ∧ (DisassembledTo i s t ∨ SimulatedTo i s t) := by
  obtain ⟨-, ⟨-, rfl⟩ | ⟨k, c, -, rfl⟩ | ⟨i, hf, hm, ht⟩ | ⟨i, u, hf, hm, hx, ht⟩⟩ := step_cases h
  · cases completed
  · cases completed
  · exact ⟨i, hf, .inl ⟨hm, ht⟩⟩
  · have running : u.status = .running := by rwa [ht, retireSimulated_status] at completed
    obtain ⟨-, -, hlines, hchanges⟩ := exec_inputs hx
    rw [retireSimulated_running s i running, hlines, hchanges] at ht
    exact ⟨i, hf, .inr ⟨hm, u, hx, running, ht⟩⟩

/-! ### The inputs -/

/-- Settles O36: no execution changes an input (`exec_inputs`), and no commit does. -/
theorem inputsNeverChange : Obligations.InputsNeverChange := by
  intro s t h
  by_cases completed : t.status = .running
  · obtain ⟨i, -, ⟨-, rfl⟩ | ⟨-, u, hx, -, rfl⟩⟩ := completed_cases h completed
    · exact ⟨rfl, rfl⟩
    · obtain ⟨hcode, hmode, -, -⟩ := exec_inputs hx
      exact ⟨hcode, hmode⟩
  · rw [eq_of_step_ended h completed]
    exact ⟨rfl, rfl⟩

/-- R61, R102: a fetch reads the image and `ip` and nothing else. -/
theorem fetch_congr {s t : State} (hcode : s.code = t.code) (hip : s.ip = t.ip) : s.fetch = t.fetch := by
  rw [State.fetch, State.fetch, hcode, hip]

/-- Settles O37: a fetch reads the image and `ip`, and no step writes the image. -/
theorem storesNeverReachFetch : Obligations.StoresNeverReachFetch := by
  refine ⟨fun s m => fetch_congr rfl rfl, fun s t h m => fetch_congr ?_ rfl⟩
  obtain ⟨hcode, -⟩ := inputsNeverChange s t h
  exact hcode

/-! ### The invariant -/

/-- The start of a run meets the invariant when its image fits in Memory. -/
theorem inv_start {code : List Byte} {mode : Mode} (fits : code.length ≤ Config.maxImage) : (State.start code mode).Inv where
  memory := rfl
  image := fits
  traced _ := rfl
  records := nofun
  untouched _ := ⟨rfl, rfl, rfl, rfl, rfl⟩
  errorAtIp := nofun

/-- R231, R9: what is loaded is the start of a run from an image that fits. -/
theorem start_of_load {code : List Byte} {mode : Mode} {s : State} (h : State.load code mode = .next s) :
    code.length ≤ Config.maxImage ∧ s = State.start code mode := by
  unfold State.load at h
  split at h
  · next fits => cases h; exact ⟨fits, rfl⟩
  · cases h

/-- Settles O47: reset is the start of the empty image. -/
theorem invariantHoldsAtReset : Obligations.InvariantHoldsAtReset := by
  refine ⟨inv_start (code := []) (mode := .simulate) (Nat.zero_le _), fun code mode s h => ?_⟩
  obtain ⟨fits, rfl⟩ := start_of_load h
  exact inv_start fits

section

variable {s t : State} (inv : s.Inv)
include inv

/-- A step that ends the run keeps the invariant. -/
theorem inv_of_step_ended (h : step s = .next t) (ended : t.status ≠ .running) : t.Inv := by
  have errorAtIp : ∀ k c, t.status = .error k c → c.ip = s.ip ∧ k ≠ .invalidOperandCombination := fun k c error =>
    (raise_of_step_error h error).2
  rw [eq_of_step_ended h ended]
  exact ⟨inv.memory, inv.image, inv.traced, inv.records, inv.untouched, errorAtIp⟩

/-- R37, R106: a completed `Disassemble` step moves `ip` and appends a line. -/
theorem inv_of_disassembledTo {i : Instr} (running : t.status = .running) (h : DisassembledTo i s t) : t.Inv := by
  obtain ⟨hm, rfl⟩ := h
  refine ⟨inv.memory, inv.image, fun simulate => ?traced, inv.records, inv.untouched, fun k c error => ?errorAtIp⟩
  case traced => cases hm.symm.trans simulate
  case errorAtIp => cases running.symm.trans error

/-- R11, R122: a completed `Simulate` step executes an instruction and appends one line and one list of at most three records. -/
theorem inv_of_simulatedTo {i : Instr} (h : SimulatedTo i s t) : t.Inv := by
  obtain ⟨hm, u, hx, running, rfl⟩ := h
  obtain ⟨hcode, hmode, -, -⟩ := exec_inputs hx
  refine ⟨?memory, ?image, fun _ => ?traced, fun cs hcs => ?records, fun disassemble => ?untouched, fun k c error => ?errorAtIp⟩
  case memory =>
    show u.mem.wf u.code = true
    rw [hcode]
    exact exec_wf hx inv.memory
  case image => exact hcode ▸ inv.image
  case traced =>
    show (s.changes ++ [_]).length = (s.lines ++ [_]).length
    rw [List.length_append, List.length_append, inv.traced hm]
    rfl
  case records =>
    rcases List.mem_append.1 hcs with old | new
    · exact inv.records cs old
    · rw [List.mem_singleton.1 new]
      exact length_changesOf i s u
  case untouched => cases hm.symm.trans (hmode.symm.trans disassemble)
  case errorAtIp => cases running.symm.trans error

end

/-- Settles O48: a step ends the run or completes an instruction in one of the two modes, and each keeps the invariant. -/
theorem stepKeepsTheInvariant : Obligations.StepKeepsTheInvariant := by
  intro s t inv h
  by_cases completed : t.status = .running
  · obtain ⟨i, -, disassembled | simulated⟩ := completed_cases h completed
    · exact inv_of_disassembledTo inv completed disassembled
    · exact inv_of_simulatedTo inv simulated
  · exact inv_of_step_ended inv h completed

end Sys2Proof.Machine
end

section
/-! PROOFS. The statements of spec/40_sequencer_and_renderer.md on what a step answers and emits: totality, the decoded instruction, the
line and the change records of a completed step, the phases of R100, and truncation (spec/60_exceptions.md R212). -/

namespace Sys2Proof.Machine

/-! ### A running machine takes its step -/

/-- R103: a running step answers a next state, whatever is fetched. -/
theorem exists_step_of_running {s : State} (hr : s.status = .running) : ∃ t, step s = .next t := by
  cases hf : s.fetch with
  | exhausted => exact ⟨_, step_exhausted hr (length_le_ip_of_fetch_exhausted hf)⟩
  | failed k c => exact ⟨_, step_failed hr hf⟩
  | decoded i =>
    cases hm : s.mode with
    | disassemble => exact ⟨_, step_disassemble hr hm hf⟩
    | simulate =>
      obtain ⟨t, hx, -⟩ := exec_cases i s
      exact ⟨_, step_simulate hr hm hf hx⟩

/-- Settles O27: `exists_step_of_running`, and the two guards of `step` on the other statuses. -/
theorem runningStepNeverStops : Obligations.RunningStepNeverStops :=
  ⟨fun _ => exists_step_of_running, fun s hs => by rw [step, hs], fun s k c hs => by rw [step, hs]⟩

/-! ### The decoded instruction -/

/-- R107: a `Simulate` step is the execution with its outputs, or the execution alone when it ended the run. -/
theorem step_of_exec {s t : State} {i : Instr} (hr : s.status = .running) (hm : s.mode = .simulate) (hf : s.fetch = .decoded i)
    (hx : exec i s = .next t) :
    (t.status = .running → step s = .next { t with lines := t.lines ++ [render i ++ annotation (changesOf i s t)],
                                                   changes := t.changes ++ [changesOf i s t] }) ∧
    (t.status ≠ .running → step s = .next t) := by
  rw [step_simulate hr hm hf hx]
  exact ⟨fun running => congrArg _ (retireSimulated_running s i running), fun ended => congrArg _ (retireSimulated_ended s i ended)⟩

/-- Settles O25: `step_disassemble`, and both ends of `step_of_exec`. -/
theorem stepRunsTheDecodedInstruction : Obligations.StepRunsTheDecodedInstruction := by
  intro s i rest hr hdec
  have hf := fetch_decoded hdec
  exact ⟨fun hm => step_disassemble hr hm hf, fun hm =>
    ⟨fun t hx => (step_of_exec hr hm hf hx).1, fun t hx => (step_of_exec hr hm hf hx).2⟩⟩

/-- R102, R103: an instruction whose encoding stands at `ip` is what is fetched. -/
theorem fetch_encode {s : State} {i : Instr} {rest : List Byte} (hw : i.wf = true) (bytes : s.code.drop s.ip = encode i ++ rest) :
    s.fetch = .decoded i :=
  fetch_decoded (bytes ▸ encodedInstructionDecodesToItself i rest hw)

/-- Settles O26: `fetch_encode`; the commit of a completed step leaves all but the outputs. -/
theorem placedInstructionRuns : Obligations.PlacedInstructionRuns := by
  intro i before after s hw hcode hip hr hm
  have hf : s.fetch = .decoded i := fetch_encode (rest := after) hw (by rw [hcode, hip, List.append_assoc, List.drop_left])
  obtain ⟨t, hx, -⟩ := exec_cases i s
  refine ⟨t, hx, fun running => ⟨step_simulate hr hm hf hx, ?_⟩, (step_of_exec hr hm hf hx).2⟩
  rw [retireSimulated_running s i running]
  exact ⟨rfl, rfl, rfl, rfl, rfl⟩

/-! ### The `Disassemble` mode -/

/-- R37, R106: in `Disassemble` mode a step changes `ip`, the run status and the lines, and reads no more than these and the image. -/
theorem step_disassemble_cases {s t : State} (hm : s.mode = .disassemble) (h : step s = .next t) : ∃ ip status lines,
    t = { s with ip := ip, status := status, lines := lines } ∧
    ∀ s' : State, s'.mode = .disassemble → s.code = s'.code → s.ip = s'.ip → s.status = s'.status → s.lines = s'.lines →
      step s' = .next { s' with ip := ip, status := status, lines := lines } := by
  obtain ⟨hr, ⟨hf, rfl⟩ | ⟨k, c, hf, rfl⟩ | ⟨i, hf, -, rfl⟩ | ⟨_, _, -, simulate, -⟩⟩ := step_cases h
  · refine ⟨s.ip, .exhausted, s.lines, rfl, fun s' hm' hcode hip hst hlines => ?_⟩
    rw [step_exhausted (hst ▸ hr) (hcode ▸ hip ▸ length_le_ip_of_fetch_exhausted hf), hip, hlines]
    rfl
  · refine ⟨s.ip, .error k c, s.lines, rfl, fun s' hm' hcode hip hst hlines => ?_⟩
    rw [step_failed (hst ▸ hr) (fetch_congr hcode hip ▸ hf), hip, hlines]
    rfl
  · refine ⟨s.ip + i.length, s.status, s.lines ++ [render i], rfl, fun s' hm' hcode hip hst hlines => ?_⟩
    rw [step_disassemble (hst ▸ hr) hm' (fetch_congr hcode hip ▸ hf), hip, hst, hlines]
    rfl
  · cases hm.symm.trans simulate

/-- Settles O35: the same change of `ip`, status and lines in both states. -/
theorem disassembleIgnoresTheSimulator : Obligations.DisassembleIgnoresTheSimulator := by
  intro s s' t hm hm' hcode hip hst hlines h
  obtain ⟨ip, status, lines, rfl, same⟩ := step_disassemble_cases hm h
  exact ⟨⟨_, same s' hm' hcode hip hst hlines, rfl, rfl, rfl, hcode.symm⟩, rfl, rfl, rfl, rfl, rfl⟩

/-! ### Lines -/

/-- Settles O38: the two forms of a completed step, and `eq_of_step_ended` for the others. -/
theorem oneLinePerCompletedStep : Obligations.OneLinePerCompletedStep := by
  refine fun s t h => ⟨fun completed => ?completed, fun ended => ?ended⟩
  case completed =>
    obtain ⟨i, hf, ⟨hm, rfl⟩ | ⟨hm, u, -, -, rfl⟩⟩ := completed_cases h completed
    · refine ⟨i, "", hf, by rw [String.append_empty]; rfl, fun _ => ⟨rfl, rfl⟩, fun simulate => ?_⟩
      cases hm.symm.trans simulate
    · refine ⟨i, _, hf, rfl, fun disassemble => ?_, fun _ => ⟨_, rfl, rfl⟩⟩
      cases hm.symm.trans disassemble
  case ended =>
    rw [eq_of_step_ended h ended]
    exact ⟨rfl, rfl⟩

/-! ### The phases -/

/-- Settles O42: the transitions follow the branches of `decode`, and each ends the step as `fetch` and `step` do. -/
theorem fetchEnginePhasesMakeOneStep : Obligations.FetchEnginePhasesMakeOneStep := by
  intro s hr
  simp only [runPhases, phaseMove, fromFetching, step, hr, State.fetch]
  cases hd : s.code.drop s.ip with
  | nil => simp only [decode]
  | cons b0 tl =>
    have after : s.code.drop (s.ip + 1) = tl := by rw [← List.drop_drop, hd]; rfl
    cases hc : classify b0 with
    | none => simp only [decode, hc]
    | some row =>
      simp only [decode, hc, fromClassified, after]
      cases hl : resolveLength row b0 tl with
      | error e => cases e <;> rfl
      | ok n =>
        simp only [hd, fromLengthResolved, resolveInstr]
        cases hk : resolveKind row (byteAt ((b0 :: tl).take n) 1) with
        | none => rfl
        | some k => cases hm : s.mode <;> simp only [fromDecoded, hm]

/-! ### Truncation -/

/-- R212: the context of a truncated instruction. -/
theorem step_truncated {s : State} {b0 : Byte} {needed available : Nat} (hr : s.status = .running)
    (hdec : decode (s.code.drop s.ip) = .error (.truncated b0 needed available)) :
    step s = .next (s.raise .truncatedInstruction
      { ip := s.ip, byte0 := b0, needed := some needed, available := some available }) :=
  step_failed hr (by rw [State.fetch, hdec])

/-- R104 (D24): a first byte alone. -/
theorem decode_lone_byte {b0 : Byte} {row : EncRow} (hrow : classify b0 = some row) :
    decode [b0] = .error (.truncated b0 (if row.cls.needsModRm = true then 2 else lengthOf row.cls b0 0) 1) := by
  have lone : resolveLength row b0 [] =
      .error (.truncated b0 (if row.cls.needsModRm = true then 2 else lengthOf row.cls b0 0) 1) := by
    cases hm : row.cls.needsModRm with
    | true => simp [resolveLength, hm]
    | false =>
      have short : 1 < lengthOf row.cls b0 (byteAt [] 0) := (lengthOf_bounds row.cls b0 _).1
      simp only [resolveLength, hm, one_add_additionalLength, List.length_nil, Nat.zero_add, if_pos short]
      rfl
  simp only [decode, hrow, lone]

/-- Settles O31: a first byte alone (`decode_lone_byte`), and fewer bytes than the length (`decode_of_short`), which comes before the
sub-opcode. -/
theorem truncationEndsTheRun : Obligations.TruncationEndsTheRun := by
  refine ⟨fun s b0 row hr bytes hrow hm => ?modRm, fun s b0 b1 x row hr bytes hrow short => ?short,
    fun s b0 row hr bytes hrow hm => ?other⟩
  case modRm => exact step_truncated hr (by rw [bytes, decode_lone_byte hrow, if_pos hm])
  case short =>
    have available : s.code.length - s.ip = x.length + 2 := by rw [← List.length_drop, bytes]; rfl
    rw [available]
    exact step_truncated hr (bytes ▸ decode_of_short hrow short)
  case other => exact step_truncated hr (by rw [bytes, decode_lone_byte hrow, if_neg (by simp [hm])])

end Sys2Proof.Machine
end

section
/-! PROOFS. The statement on the change records (spec/40_sequencer_and_renderer.md R121 to R123): they are the differences between the
states before and after. -/

namespace Sys2Proof.Machine

section

variable {i : Instr} {s t : State} {c : Change}

/-- The frame says nothing about `ip`. -/
theorem KeptBut.redirected {d : Dest} (h : KeptBut d s t) (n : Nat) : KeptBut d s (t.jumpTo n) := h.moved n

/-- R107: an execution that did not end the run keeps all but the destination, `ip` and the flags. -/
theorem kept_of_exec (h : exec i s = .next t) (running : t.status = .running) : KeptBut (destOf i) s t := by
  obtain ⟨u, hu, ⟨-, -, kept, -⟩ | ⟨rel, b, -, -, ⟨-, rfl⟩ | ⟨-, rfl⟩⟩⟩ := exec_cases i s <;> cases hu.symm.trans h
  · exact kept
  · exact (KeptBut.refl_any (destOf i) s).redirected _
  · cases running

/-! ### The records of each kind -/

theorem mem_reg16Change {r : Reg16} : c ∈ reg16Change r s t ↔ s.reg16 r ≠ t.reg16 r ∧ c = .reg r (s.reg16 r) (t.reg16 r) := by
  unfold reg16Change
  split <;> simp [*]

theorem mem_sregChange {q : SReg} : c ∈ sregChange q s t ↔ s.sreg q ≠ t.sreg q ∧ c = .sreg q (s.sreg q) (t.sreg q) := by
  unfold sregChange
  split <;> simp [*]

theorem mem_ipChange : c ∈ ipChange s t ↔ s.ip ≠ t.ip ∧ c = .ip s.ip t.ip := by
  unfold ipChange
  split <;> simp [*, Ne.symm]

theorem mem_flagsChange : c ∈ flagsChange s t ↔ s.flags ≠ t.flags ∧ c = .flags s.flags t.flags := by
  unfold flagsChange
  split <;> simp [*]

/-- R122: a record of a register or a segment register that differs. -/
def IsRegisterDifference (s t : State) (c : Change) : Prop :=
  (∃ r, s.reg16 r ≠ t.reg16 r ∧ c = .reg r (s.reg16 r) (t.reg16 r)) ∨
  (∃ q, s.sreg q ≠ t.sreg q ∧ c = .sreg q (s.sreg q) (t.sreg q))

theorem isRegisterDifference_reg {r : Reg16} {o n : Word} :
    IsRegisterDifference s t (.reg r o n) ↔ s.reg16 r ≠ t.reg16 r ∧ o = s.reg16 r ∧ n = t.reg16 r := by
  constructor
  · rintro (⟨_, differs, ⟨⟩⟩ | ⟨_, -, ⟨⟩⟩)
    exact ⟨differs, rfl, rfl⟩
  · rintro ⟨differs, rfl, rfl⟩
    exact .inl ⟨r, differs, rfl⟩

theorem isRegisterDifference_sreg {q : SReg} {o n : Word} :
    IsRegisterDifference s t (.sreg q o n) ↔ s.sreg q ≠ t.sreg q ∧ o = s.sreg q ∧ n = t.sreg q := by
  constructor
  · rintro (⟨_, -, ⟨⟩⟩ | ⟨_, differs, ⟨⟩⟩)
    exact ⟨differs, rfl, rfl⟩
  · rintro ⟨differs, rfl, rfl⟩
    exact .inr ⟨q, differs, rfl⟩

/-- Where one register alone can differ, its record is all there is. -/
theorem mem_reg16Change_iff {p : Reg16} (regs : ∀ q, q ≠ p → t.reg16 q = s.reg16 q) (segs : ∀ q, t.sreg q = s.sreg q) :
    c ∈ reg16Change p s t ↔ IsRegisterDifference s t c := by
  rw [mem_reg16Change]
  refine ⟨fun h => .inl ⟨p, h⟩, ?_⟩
  rintro (⟨r, differs, hc⟩ | ⟨q, differs, -⟩)
  · by_cases h : r = p
    · exact h ▸ ⟨differs, hc⟩
    · exact absurd (regs r h).symm differs
  · exact absurd (segs q).symm differs

/-- Where one segment register alone can differ, its record is all there is. -/
theorem mem_sregChange_iff {p : SReg} (regs : ∀ q, t.reg16 q = s.reg16 q) (segs : ∀ q, q ≠ p → t.sreg q = s.sreg q) :
    c ∈ sregChange p s t ↔ IsRegisterDifference s t c := by
  rw [mem_sregChange]
  refine ⟨fun h => .inr ⟨p, h⟩, ?_⟩
  rintro (⟨r, differs, -⟩ | ⟨q, differs, hc⟩)
  · exact absurd (regs r).symm differs
  · by_cases h : q = p
    · exact h ▸ ⟨differs, hc⟩
    · exact absurd (segs q h).symm differs

/-- Where no register can differ, there is no record. -/
theorem not_isRegisterDifference (regs : ∀ q, t.reg16 q = s.reg16 q) (segs : ∀ q, t.sreg q = s.sreg q) :
    ¬ IsRegisterDifference s t c := by
  rintro (⟨r, differs, -⟩ | ⟨q, differs, -⟩)
  · exact differs (regs r).symm
  · exact differs (segs q).symm

/-- R122: the frame of an instruction makes its register record the only difference of the registers. -/
theorem mem_registerChange (kept : KeptBut (destOf i) s t) : c ∈ registerChange i s t ↔ IsRegisterDifference s t c := by
  revert kept
  unfold registerChange destOf
  rcases operandsOf i with (⟨_ | _, _⟩ | ⟨_ | _ | _, _⟩) | _ <;> rintro ⟨regs, segs, -⟩
  · exact mem_reg16Change_iff regs.1 segs
  · exact iff_of_false List.not_mem_nil (not_isRegisterDifference regs segs)
  · exact mem_reg16Change_iff regs segs
  · exact mem_sregChange_iff regs segs
  · exact iff_of_false List.not_mem_nil (not_isRegisterDifference regs segs)
  · exact iff_of_false List.not_mem_nil (not_isRegisterDifference regs segs)

theorem mem_changesOf (kept : KeptBut (destOf i) s t) : c ∈ changesOf i s t ↔
    (IsRegisterDifference s t c ∨ s.ip ≠ t.ip ∧ c = .ip s.ip t.ip) ∨ s.flags ≠ t.flags ∧ c = .flags s.flags t.flags := by
  simp only [changesOf, List.mem_append, mem_registerChange kept, mem_ipChange, mem_flagsChange]

/-! ### Their order -/

/-- No record, or one that stands at place `n`. -/
def AtMostOneAt (n : Nat) (cs : List Change) : Prop := cs = [] ∨ ∃ c, cs = [c] ∧ changeRank c = n

theorem atMostOneAt_ite (p : Prop) [Decidable p] : AtMostOneAt (changeRank c) (if p then [] else [c]) := by
  split
  · exact .inl rfl
  · exact .inr ⟨c, rfl, rfl⟩

theorem atMostOneAt_registerChange : AtMostOneAt 0 (registerChange i s t) := by
  unfold registerChange
  rcases operandsOf i with (⟨_ | _, _⟩ | ⟨_ | _ | _, _⟩) | _
  · exact atMostOneAt_ite _
  · exact .inl rfl
  · exact atMostOneAt_ite _
  · exact atMostOneAt_ite _
  · exact .inl rfl
  · exact .inl rfl

/-- R123: register, `ip`, flags. -/
theorem pairwise_changesOf : (changesOf i s t).Pairwise (fun c d => changeRank c < changeRank d) := by
  have hi : AtMostOneAt 1 (ipChange s t) := atMostOneAt_ite _
  have hf : AtMostOneAt 2 (flagsChange s t) := atMostOneAt_ite _
  unfold changesOf
  rcases atMostOneAt_registerChange (i := i) (s := s) (t := t) with hr | ⟨r, hr, rankR⟩ <;> rcases hi with hi | ⟨p, hi, rankP⟩ <;>
    rcases hf with hf | ⟨f, hf, rankF⟩ <;> simp [*]

end

/-- Settles O39: the records are those of `mem_changesOf`, by the frame of the execution; the commit changes no register, no flag and not
`ip`. -/
theorem changeRecordsDescribeTheStep : Obligations.ChangeRecordsDescribeTheStep := by
  intro s t hm h completed
  obtain ⟨i, -, ⟨disassemble, -⟩ | ⟨-, u, hx, running, rfl⟩⟩ := completed_cases h completed
  · cases hm.symm.trans disassemble
  have kept := kept_of_exec hx running
  refine ⟨changesOf i s u, rfl, length_changesOf i s u, pairwise_changesOf, fun r o n => ?reg, fun q o n => ?sreg, fun o n => ?ip,
    fun o n => ?flags⟩ <;> rw [mem_changesOf kept]
  case reg =>
    simp only [isRegisterDifference_reg, reduceCtorEq, and_false, or_false]
    exact Iff.rfl
  case sreg =>
    simp only [isRegisterDifference_sreg, reduceCtorEq, and_false, or_false]
    exact Iff.rfl
  case ip => simp [IsRegisterDifference]
  case flags => simp [IsRegisterDifference]

end Sys2Proof.Machine
end

section
/-! PROOFS. The statements of spec/43_branch.md on negative targets (R213), on what goes on to the byte after it, and on the jump to
itself (R236, Scenario E). -/

namespace Sys2Proof.Machine

/-! ### Negative targets -/

/-- R180, R213: a taken branch with a negative target. -/
theorem branch_of_negative (byte0 : Byte) {rel : Byte} {s : State} (h : (s.ip : Int) + 2 + rel.toInt < 0) :
    branch true byte0 rel s = .next (s.raise .branchTargetNegative { ip := s.ip, byte0 := byte0, rel := some rel.toInt }) := by
  rw [← branchTarget_eq] at h
  rcases branch_cases true byte0 rel s with ⟨-, -, raised⟩ | ⟨-, notNegative, -⟩ | ⟨untaken, -⟩
  · rw [raised, signed8_eq]
  · omega
  · cases untaken

/-- Settles O22: `branch_of_negative`, and a step whose execution ended the run adds nothing to it. -/
theorem negativeTargetEndsTheRun : Obligations.NegativeTargetEndsTheRun := by
  intro rel s p hp taken negative
  have hx := exec_of_mem_takenJumps hp
  rw [taken, branch_of_negative p.2.2 negative] at hx
  exact ⟨hx, fun hr hm hf => (step_of_exec hr hm hf hx).2 nofun⟩

/-! ### Everything else goes on to the byte after it -/

/-- R181: the loops and JCXZ only advance `ip`, whatever the state. -/
theorem exec_of_mem_loops {rel : Byte} {i : Instr} (h : i ∈ [Instr.loopnz rel, .loopz rel, .loop rel, .jcxz rel]) (s : State) :
    exec i s = .next (s.advance 2) := by
  simp only [List.mem_cons, List.not_mem_nil, or_false] at h
  rcases h with rfl | rfl | rfl | rfl <;> rfl

/-- Settles O23: of the cases of `exec_cases` only a taken jump redirects or fails; the loops are `advance 2` from both states. -/
theorem onlyFourJumpsRedirectOrFail : Obligations.OnlyFourJumpsRedirectOrFail := by
  refine ⟨fun i s t hx other => ?_, fun rel s v i hi => ⟨s.advance 2, exec_of_mem_loops hi s, rfl, exec_of_mem_loops hi _⟩⟩
  obtain ⟨u, hu, ⟨hst, hip, -⟩ | ⟨rel, byte0, -, taken, -⟩⟩ := exec_cases i s <;> cases hu.symm.trans hx
  · rw [length_encode]
    exact ⟨hip, hst⟩
  · obtain ⟨je, jne, js, jns⟩ := other rel
    simp [takenJumps, je, jne, js, jns] at taken

/-! ### The jump to itself -/

/-- R68: the two bytes of a jump that can be taken. -/
theorem encode_of_mem_takenJumps {rel : Byte} {f : Flags} {p : Instr × Bool × Byte} (h : p ∈ takenJumps rel f) :
    encode p.1 = [p.2.2, rel] ∧ p.1.wf = true ∧ operandsOf p.1 = .jump rel := by
  simp only [takenJumps, List.mem_cons, List.not_mem_nil, or_false] at h
  rcases h with rfl | rfl | rfl | rfl <;> exact ⟨rfl, rfl, rfl⟩

/-- R122: a jump that leaves the state as it was has no record. -/
theorem changesOf_self_of_jump {i : Instr} {rel : Byte} (h : operandsOf i = .jump rel) (s : State) : changesOf i s s = [] := by
  simp [changesOf, registerChange, h, ipChange, flagsChange]

/-- The state after `k` more lines `line` and as many empty record lists. -/
def State.emitted (s : State) (line : String) (k : Nat) : State :=
  { s with lines := s.lines ++ List.replicate k line, changes := s.changes ++ List.replicate k [] }

theorem emitted_zero (s : State) (line : String) : s.emitted line 0 = s := by simp [State.emitted]

theorem emitted_emitted (s : State) (line : String) (j k : Nat) : (s.emitted line j).emitted line k = s.emitted line (j + k) := by
  simp [State.emitted]

/-- R236, D27: a taken jump to itself is one line without annotation. -/
theorem step_selfJump {s : State} {x : List Byte} {p : Instr × Bool × Byte} (hp : p ∈ takenJumps 0xFE s.flags) (taken : p.2.1 = true)
    (hr : s.status = .running) (hm : s.mode = .simulate) (bytes : s.code.drop s.ip = p.2.2 :: 0xFE#8 :: x) :
    step s = .next (s.emitted (render p.1) 1) := by
  obtain ⟨he, hw, jump⟩ := encode_of_mem_takenJumps hp
  have hf : s.fetch = .decoded p.1 := fetch_encode hw (by rw [bytes, he]; rfl)
  have target : (s.ip : Int) + 2 + (0xFE : Byte).toInt = s.ip := by
    have : (0xFE : Byte).toInt = -2 := by decide
    omega
  have hx : exec p.1 s = .next s := by
    rw [exec_of_mem_takenJumps hp, taken, branch_of_true p.2.2 (by omega), target]
    rfl
  rw [(step_of_exec hr hm hf hx).1 hr, changesOf_self_of_jump jump]
  simp [State.emitted, annotation]

/-- R236: any number of steps, by induction; each step leaves all that the next one reads. -/
theorem runFuel_selfJump {x : List Byte} {p : Instr × Bool × Byte} (taken : p.2.1 = true) (k : Nat) :
    ∀ s : State, p ∈ takenJumps 0xFE s.flags → s.status = .running → s.mode = .simulate →
      s.code.drop s.ip = p.2.2 :: 0xFE#8 :: x → runFuel k s = s.emitted (render p.1) k := by
  induction k with
  | zero => exact fun s _ _ _ _ => (emitted_zero s _).symm
  | succ k ih =>
    intro s hp hr hm bytes
    rw [runFuel, step_selfJump hp taken hr hm bytes]
    show runFuel k (s.emitted (render p.1) 1) = _
    rw [ih (s.emitted (render p.1) 1) hp hr hm bytes, emitted_emitted, Nat.add_comm]

/-- Settles O41: `runFuel_selfJump`; the four texts are the same for all flags. -/
theorem selfJumpNeverEnds : Obligations.SelfJumpNeverEnds :=
  ⟨fun s _ k _ hp taken hr hm bytes => runFuel_selfJump taken k s hp hr hm bytes, fun _ => by
    simp only [takenJumps, List.map_cons, List.map_nil]
    decide⟩

end Sys2Proof.Machine
end

section
/-! PROOFS. The statements of spec/10_state.md and spec/20_memory.md on full registers, reset and loading (R22, R25, R36, R231), memory
writes (R51) and effective addresses (R52 to R54), and the two non-interference statements on the flags and the segment registers. -/

namespace Sys2Proof.Machine

/-! ### Registers -/

/-- Settles O13: the register laws, with the equation turned round. -/
theorem fullRegisterWrites : Obligations.FullRegisterWrites := by
  refine ⟨fun s r q v => ?general, fun s q v => ?halves, fun s r q v => ?segment⟩
  case general => simp only [reg16_setReg16, eq_comm]
  case halves => rw [reg8_setReg16, if_pos rfl]
  case segment => simp only [sreg_setSreg, eq_comm]

/-! ### Reset and loading -/

/-- R36, R47: Memory at the start of a run is the image, with zeros above it. -/
theorem readByte_start (code : List Byte) (mode : Mode) (a : Nat) : (State.start code mode).readByte a = code.getD a 0 := rfl

/-- R36: every general register is 0 at the start of a run. -/
theorem reg16_start (code : List Byte) (mode : Mode) (r : Reg16) : (State.start code mode).reg16 r = 0 := by cases r <;> rfl

/-- Settles O43: the registers by `cases`; a byte of Memory is `readByte_start`, inside or past the image. -/
theorem resetValues : Obligations.ResetValues := by
  refine fun code mode => ⟨reg16_start code mode, fun r => ?halves, fun q => ?segment, rfl, rfl, rfl, rfl, rfl, rfl,
    fun a b inside => ?image, fun a past => ?zeros⟩
  case halves =>
    rw [reg8_eq, reg16_start]
    cases r <;> decide
  case segment => cases q <;> rfl
  case image => rw [readByte_start, List.getD_eq_getElem?_getD, inside, Option.getD_some]
  case zeros => rw [readByte_start, List.getD_eq_default _ _ past]

/-- Settles O44: the bound of `State.load` is 1,048,576. -/
theorem loadingStartsARunOrRefuses : Obligations.LoadingStartsARunOrRefuses :=
  ⟨fun _ _ fits => if_pos fits, fun _ _ tooLarge => if_neg (not_le.2 tooLarge), rfl⟩

/-! ### Memory writes -/

/-- Settles O15: `readByte_writeByte` and `readByte_writeWord`. -/
theorem memoryWritesChangeOnlyTheirBytes : Obligations.MemoryWritesChangeOnlyTheirBytes := by
  refine ⟨fun s a b v => ?byte, fun s a b v low high => ?word, fun s a v => ⟨readWord_writeWord s a v, rfl⟩, fun _ _ _ => rfl⟩
  case byte => simp only [readByte_writeByte, eq_comm]
  case word => rw [readByte_writeWord, if_neg high.symm, if_neg low.symm]

/-! ### Effective addresses -/

/-- R52: base plus index, modulo 65,536. -/
theorem toNat_baseValue (s : State) (b : Base) : (s.baseValue b).toNat = baseSum s b % 65536 := by
  cases b <;> simp only [State.baseValue, baseSum, BitVec.toNat_add, Nat.reducePow, Nat.mod_eq_of_lt (BitVec.isLt _)]

/-- R52, R53: the base and a displacement whose value is known modulo 65,536. -/
theorem toNat_baseValue_add (s : State) (b : Base) {d : Word} {v : Int} (h : (d.toNat : Int) = v % 65536) :
    ((s.baseValue b + d).toNat : Int) = (baseSum s b + v) % 65536 := by
  rw [BitVec.toNat_add, toNat_baseValue]
  omega

theorem toNat_eq_toInt_emod (d : Word) : (d.toNat : Int) = d.toInt % 65536 := by
  have := d.isLt
  rw [← signed16_eq, signed16]
  split <;> omega

/-- Settles O16: the base by `toNat_baseValue`; a displacement is its signed value modulo 65,536. -/
theorem effectiveAddressRule : Obligations.EffectiveAddressRule := by
  refine fun s => ⟨fun _ => rfl, toNat_baseValue s, fun b d => ?disp8, fun b d => ?disp16⟩
  case disp8 => exact toNat_baseValue_add s b (by rw [toNat_sext16, signed8_eq])
  case disp16 => exact toNat_baseValue_add s b (toNat_eq_toInt_emod d)

/-- R54: what is stored stands at 16-bit addresses and the one after the last. -/
theorem le_of_mem_addresses {s : State} {d : Dest} {a : Nat} (h : a ∈ d.addresses s) : a ≤ 0x10000 := by
  rcases d with _ | ⟨_ | m⟩ | ⟨_ | _ | m⟩
  case byte.mem | word.mem =>
    have := (s.ea m).isLt
    simp only [Dest.addresses, List.mem_cons, List.not_mem_nil, or_false] at h
    omega
  all_goals cases h

/-- Settles O17: the store and the load are a word at 0xFFFF, whose second byte is at 0x10000. -/
theorem wordAtTheTopOfTheWindow : Obligations.WordAtTheTopOfTheWindow := by
  refine ⟨fun s => ⟨_, rfl, ?low, ?high, ?zero⟩, fun s => ⟨_, rfl, ?load⟩, fun s d a h => le_of_mem_addresses h⟩
  case low => exact readByte_writeWord_low s 0xFFFF (s.reg16 .ax)
  case high => exact readByte_writeWord_high s 0xFFFF (s.reg16 .ax)
  case zero => exact readByte_writeWord s 0xFFFF 0 (s.reg16 .ax)
  case load =>
    show ((s.setReg16 .ax (s.readWord 0xFFFF)).reg16 .ax).toNat = _
    rw [reg16_setReg16, if_pos rfl, toNat_readWord]

/-! ### No ALU instruction reads a flag -/

section

variable (s : State) (f : Flags)

theorem readLoc8_setFlags (l : Loc8) : (s.setFlags f).readLoc8 l = s.readLoc8 l := by cases l <;> rfl

theorem readLoc16_setFlags (l : Loc16) : (s.setFlags f).readLoc16 l = s.readLoc16 l := by cases l <;> rfl

theorem readSrc8_setFlags (src : Src8) : (s.setFlags f).readSrc8 src = s.readSrc8 src := by
  cases src with
  | loc l => exact readLoc8_setFlags s f l
  | imm v => rfl

theorem readSrc16_setFlags (src : Src16) : (s.setFlags f).readSrc16 src = s.readSrc16 src := by
  cases src with
  | loc l => exact readLoc16_setFlags s f l
  | imm v => rfl

theorem writeLoc8_setFlags (l : Loc8) (v : Byte) : (s.setFlags f).writeLoc8 l v = (s.writeLoc8 l v).setFlags f := by cases l <;> rfl

theorem writeLoc16_setFlags (l : Loc16) (v : Word) : (s.setFlags f).writeLoc16 l v = (s.writeLoc16 l v).setFlags f := by
  cases l <;> rfl

/-- R162: both flags are overwritten and neither is read. -/
theorem alu_setFlags (op : AluOp) (roles : Roles) (n : Nat) : alu op roles n (s.setFlags f) = alu op roles n s := by
  cases roles with
  | byte dst src => simp only [alu, readLoc8_setFlags, readSrc8_setFlags, writeLoc8_setFlags]; cases op <;> rfl
  | word dst src => simp only [alu, readLoc16_setFlags, readSrc16_setFlags, writeLoc16_setFlags]; cases op <;> rfl

end

/-- Settles O20: the ALU family is executed by `alu`; of every other instruction `exec_cases` keeps the flags. -/
theorem flagsBelongToTheAluFamily : Obligations.FlagsBelongToTheAluFamily := by
  refine ⟨fun i s f family => ?reads, fun i s t family hx => ?keeps⟩
  case reads =>
    cases shape i with
    | alu op roles _ _ h => rw [h, h, alu_setFlags]
    | mov _ _ other _ | taken _ _ _ _ other _ _ _ | untaken _ _ other _ _ _ => cases family.symm.trans other
  case keeps =>
    obtain ⟨u, hu, ⟨-, -, -, kept⟩ | ⟨_, _, -, -, ⟨-, rfl⟩ | ⟨-, rfl⟩⟩⟩ := exec_cases i s <;> cases hu.symm.trans hx
    · exact kept family
    · rfl
    · rfl

/-! ### The segment registers -/

/-- The state with other segment registers. -/
def State.withSegs (s : State) (f : SegFile) : State := { s with segs := f }

section

variable (s : State) (f : SegFile)

theorem readLoc8_withSegs (l : Loc8) : (s.withSegs f).readLoc8 l = s.readLoc8 l := by cases l <;> rfl

theorem readLoc16_withSegs {l : Loc16} (other : ∀ q, l ≠ .sreg q) : (s.withSegs f).readLoc16 l = s.readLoc16 l := by
  cases l with
  | reg r => rfl
  | mem m => rfl
  | sreg q => exact absurd rfl (other q)

theorem readSrc8_withSegs (src : Src8) : (s.withSegs f).readSrc8 src = s.readSrc8 src := by
  cases src with
  | loc l => exact readLoc8_withSegs s f l
  | imm v => rfl

theorem readSrc16_withSegs {src : Src16} (other : ∀ q, src ≠ .loc (.sreg q)) : (s.withSegs f).readSrc16 src = s.readSrc16 src := by
  cases src with
  | loc l => exact readLoc16_withSegs s f fun q h => other q (congrArg _ h)
  | imm v => rfl

theorem writeLoc8_withSegs (l : Loc8) (v : Byte) : (s.withSegs f).writeLoc8 l v = (s.writeLoc8 l v).withSegs f := by cases l <;> rfl

/-- A write changes no more of the segment registers than its destination. -/
theorem writeLoc16_withSegs (l : Loc16) (v : Word) : ∃ g, (s.withSegs f).writeLoc16 l v = (s.writeLoc16 l v).withSegs g := by
  cases l with
  | reg r => exact ⟨f, rfl⟩
  | sreg q => exact ⟨f.set q v, rfl⟩
  | mem m => exact ⟨f, rfl⟩

end

/-- R88, R147: the operands of an instruction read no segment register: no source is one, and no destination of an ALU instruction. -/
def ReadsNoSreg (alu : Bool) : Roles → Prop
  | .byte _ _ => True
  | .word dst src => (∀ q, src ≠ .loc (.sreg q)) ∧ (alu = true → ∀ q, dst ≠ .sreg q)

theorem rmLoc16_ne_sreg (rm : Rm Reg16) (q : SReg) : rmLoc16 rm ≠ .sreg q := by cases rm <;> nofun

theorem rmLoc16_source_ne_sreg (rm : Rm Reg16) (q : SReg) : Src16.loc (rmLoc16 rm) ≠ .loc (.sreg q) := by cases rm <;> nofun

theorem readsNoSreg_rmRegRoles (family : Bool) (d : Dir) (o : RmReg) : ReadsNoSreg family (rmRegRoles d o) := by
  cases o with
  | byte rm reg => cases d <;> trivial
  | word rm reg =>
    cases d with
    | fromReg => exact ⟨nofun, fun _ => rmLoc16_ne_sreg rm⟩
    | toReg => exact ⟨rmLoc16_source_ne_sreg rm, fun _ => nofun⟩

theorem readsNoSreg_rmImmAluRoles (family : Bool) (o : RmImmAlu) : ReadsNoSreg family (rmImmAluRoles o) := by
  cases o with
  | byte _ rm imm => trivial
  | word rm imm | wordSx rm imm => exact ⟨nofun, fun _ => rmLoc16_ne_sreg rm⟩

theorem readsNoSreg_accImmRoles (family : Bool) (o : AccImm) : ReadsNoSreg family (accImmRoles o) := by
  cases o with
  | byte imm => trivial
  | word imm => exact ⟨nofun, fun _ => nofun⟩

/-- R147: only MOV_SREG_RM reads a segment register. -/
theorem readsNoSreg {i : Instr} (other : ∀ g sr rm, i ≠ .movSregRm g sr rm) {roles : Roles} (ho : operandsOf i = .two roles) :
    ReadsNoSreg (isAlu i.kind) roles := by
  cases i <;> cases ho
  case movSregRm g sr rm => exact absurd rfl (other g sr rm)
  case movRmReg d o | addRmReg d o | subRmReg d o | cmpRmReg d o => exact readsNoSreg_rmRegRoles _ d o
  case addImmRm o | subImmRm o | cmpImmRm o => exact readsNoSreg_rmImmAluRoles _ o
  case addImmAcc o | subImmAcc o | cmpImmAcc o => exact readsNoSreg_accImmRoles _ o
  case movRmSreg g sr rm => exact ⟨rmLoc16_source_ne_sreg rm, nofun⟩
  case movImmReg o =>
    cases o with
    | byte reg imm => trivial
    | word reg imm => exact ⟨nofun, nofun⟩
  case movImmRm g o =>
    cases o with
    | byte rm imm => trivial
    | word rm imm => exact ⟨nofun, nofun⟩
  case movMemAcc w a | movAccMem w a =>
    cases w with
    | byte => trivial
    | word => exact ⟨nofun, nofun⟩

/-- R180: a branch reads the condition and `ip` and changes `ip` or the run status. -/
theorem branch_withSegs {cond : Bool} {byte0 rel : Byte} {s t : State} (hx : branch cond byte0 rel s = .next t) (f : SegFile) :
    branch cond byte0 rel (s.withSegs f) = .next (t.withSegs f) := by
  unfold branch at hx ⊢
  change (if cond = true then if branchTarget s.ip rel < 0 then _ else _ else _) = _
  split at hx
  · split at hx <;> cases hx
    · next taken negative => rw [if_pos taken, if_pos negative]; rfl
    · next taken notNegative => rw [if_pos taken, if_neg notNegative]; rfl
  · next untaken => cases hx; rw [if_neg untaken]; rfl

/-- R56: with other segment registers an instruction that reads none does the same to everything else. -/
theorem exec_withSegs {i : Instr} {s t : State} (other : ∀ g sr rm, i ≠ .movSregRm g sr rm) (hx : exec i s = .next t) (f : SegFile) :
    ∃ g, exec i (s.withSegs f) = .next (t.withSegs g) := by
  cases shape i with
  | mov roles ho _ h =>
    rw [h] at hx ⊢
    cases roles with
    | byte dst src =>
      cases hx
      exact ⟨f, by rw [mov, readSrc8_withSegs, writeLoc8_withSegs]; rfl⟩
    | word dst src =>
      cases hx
      obtain ⟨noSource, -⟩ := readsNoSreg other ho
      obtain ⟨g, written⟩ := writeLoc16_withSegs s f dst (s.readSrc16 src)
      exact ⟨g, by rw [mov, readSrc16_withSegs s f noSource, written]; rfl⟩
  | alu op roles ho family h =>
    rw [h] at hx ⊢
    cases roles with
    | byte dst src =>
      cases hx
      refine ⟨f, ?_⟩
      rw [alu, readSrc8_withSegs, readLoc8_withSegs, writeLoc8_withSegs]
      cases op <;> rfl
    | word dst src =>
      cases hx
      obtain ⟨noSource, noDest⟩ := readsNoSreg other ho
      obtain ⟨g, written⟩ := writeLoc16_withSegs s f dst (op.result (s.readLoc16 dst) (s.readSrc16 src))
      rw [alu, readSrc16_withSegs s f noSource, readLoc16_withSegs s f (noDest family), written]
      cases op
      · exact ⟨g, rfl⟩
      · exact ⟨g, rfl⟩
      · exact ⟨f, rfl⟩
  | taken rel cond byte0 _ _ _ _ h =>
    rw [h] at hx ⊢
    exact ⟨f, branch_withSegs hx f⟩
  | untaken rel _ _ _ _ h =>
    rw [h] at hx ⊢
    cases hx
    exact ⟨f, rfl⟩

/-- Settles O24: a fetch reads the image and `ip`; the rest is `exec_withSegs`. -/
theorem segmentRegistersTakeNoPart : Obligations.SegmentRegistersTakeNoPart := by
  refine ⟨fun s f => fetch_congr rfl rfl, fun i s t f other hx => ?_⟩
  obtain ⟨g, same⟩ := exec_withSegs other hx f
  exact ⟨t.withSegs g, same, rfl⟩

end Sys2Proof.Machine
end

section
/-! PROOFS. The statement of spec/40_sequencer_and_renderer.md section 2 on the rendered lines (R109 to R117). -/

namespace Sys2Proof.Machine

/-- R117: the text of a two-operand instruction. -/
theorem render_of_two {i : Instr} {roles : Roles} {name text : String} (hname : mnemonicOf i.kind ++ " " = name)
    (ho : operandsOf i = .two roles) (htext : rolesText i.kind roles = text) : render i = name ++ text := by
  rw [render, hname, ho, operandText, htext]

theorem mov_space : "mov" ++ " " = "mov " := by decide

/-! ### The text of the operands -/

section

variable {k : Kind}

/-- R113: the keyword of a byte in memory. -/
theorem rolesText_mem_imm8 (hk : isImmRm k = true) (m : MemRef) (v : Byte) :
    rolesText k (.byte (.mem m) (.imm v)) = memText m ++ ", byte " ++ dec v.toInt := by
  have comma : ", " ++ "byte " = ", byte " := by decide
  rw [rolesText, keyword, if_pos hk, src8Text, signed8_eq, String.append_assoc (s₁ := loc8Text (.mem m)) (s₂ := ", "), comma]
  rfl

/-- R113: the keyword of a word in memory. -/
theorem rolesText_mem_imm16 (hk : isImmRm k = true) (m : MemRef) (v : Word) :
    rolesText k (.word (.mem m) (.imm v)) = memText m ++ ", word " ++ dec v.toInt := by
  have comma : ", " ++ "word " = ", word " := by decide
  rw [rolesText, keyword, if_pos hk, src16Text, signed16_eq, String.append_assoc (s₁ := loc16Text (.mem m)) (s₂ := ", "), comma]
  rfl

/-- R112: a register and a byte immediate. -/
theorem rolesText_reg_imm8 (r : Reg8) (v : Byte) : rolesText k (.byte (.reg r) (.imm v)) = reg8Name r ++ ", " ++ dec v.toInt := by
  rw [rolesText, keyword, String.append_empty, src8Text, signed8_eq]
  rfl

/-- R112: a register and a word immediate. -/
theorem rolesText_reg_imm16 (r : Reg16) (v : Word) : rolesText k (.word (.reg r) (.imm v)) = reg16Name r ++ ", " ++ dec v.toInt := by
  rw [rolesText, keyword, String.append_empty, src16Text, signed16_eq]
  rfl

/-- R113: the kinds that have no keyword. -/
theorem keyword_eq_empty (hk : isImmRm k = false) (roles : Roles) : keyword k roles = "" := by
  rcases roles with ⟨_ | _, _⟩ | ⟨_ | _ | _, _⟩ <;> simp [keyword, hk]

theorem rolesText_loc8 (hk : isImmRm k = false) (dst src : Loc8) :
    rolesText k (.byte dst (.loc src)) = loc8Text dst ++ ", " ++ loc8Text src := by
  rw [rolesText, keyword_eq_empty hk, String.append_empty, src8Text]

theorem rolesText_loc16 (hk : isImmRm k = false) (dst src : Loc16) :
    rolesText k (.word dst (.loc src)) = loc16Text dst ++ ", " ++ loc16Text src := by
  rw [rolesText, keyword_eq_empty hk, String.append_empty, src16Text]

/-- R79: a sign-extended immediate has the value of its byte. -/
theorem toInt_sext16 (v : Byte) : (sext16 v).toInt = v.toInt := BitVec.toInt_signExtend_of_le (by decide)

/-! The accumulator's name and the comma after or before it. -/

theorem al_comma : reg8Name .al ++ ", " = "al, " := by decide

theorem ax_comma : reg16Name .ax ++ ", " = "ax, " := by decide

theorem append_comma_al (text : String) : text ++ ", " ++ reg8Name .al = text ++ ", al" := by
  rw [String.append_assoc, show ", " ++ reg8Name .al = ", al" by decide]

theorem append_comma_ax (text : String) : text ++ ", " ++ reg16Name .ax = text ++ ", ax" := by
  rw [String.append_assoc, show ", " ++ reg16Name .ax = ", ax" by decide]

end

/-! ### The ALU kinds of each form, whatever the operation -/

section

variable (op : AluOp)

theorem render_aluImmRm {o : RmImmAlu} {text : String} (h : ∀ k, isImmRm k = true → rolesText k (rmImmAluRoles o) = text) :
    render (aluImmRm op o) = aluName op ++ " " ++ text := by
  cases op <;> exact render_of_two rfl rfl (h _ rfl)

theorem render_aluImmAcc {o : AccImm} {text : String} (h : ∀ k, rolesText k (accImmRoles o) = text) :
    render (aluImmAcc op o) = aluName op ++ " " ++ text := by
  cases op <;> exact render_of_two rfl rfl (h _)

theorem render_aluRmReg {d : Dir} {o : RmReg} {text : String} (h : ∀ k, isImmRm k = false → rolesText k (rmRegRoles d o) = text) :
    render (aluRmReg op d o) = aluName op ++ " " ++ text := by
  cases op <;> exact render_of_two rfl rfl (h _ rfl)

end

/-- Settles O46: each line is its mnemonic and the text of its operand roles; the keyword lemmas say which roles carry one. -/
theorem renderedText : Obligations.RenderedText := by
  refine ⟨by decide, by decide, by decide, by decide, by decide, ?movMem8, ?movMem16, ?aluMem8, ?aluMem16, ?aluMemSx, ?movReg8,
    ?movReg16, ?aluReg8, ?aluReg16, ?aluRegSx, ?immReg8, ?immReg16, ?aluAcc8, ?aluAcc16, ?movRmReg8, ?movRmReg16, ?aluRmReg8,
    ?aluRmReg16, ?direct, ?segment, ?line⟩
  case movMem8 => exact fun m g v => render_of_two mov_space rfl (rolesText_mem_imm8 rfl m v)
  case movMem16 => exact fun m g v => render_of_two mov_space rfl (rolesText_mem_imm16 rfl m v)
  case aluMem8 => exact fun op m sx v => render_aluImmRm op fun k hk => rolesText_mem_imm8 hk m v
  case aluMem16 => exact fun op m v => render_aluImmRm op fun k hk => rolesText_mem_imm16 hk m v
  case aluMemSx => exact fun op m v => toInt_sext16 v ▸ render_aluImmRm op fun k hk => rolesText_mem_imm16 hk m (sext16 v)
  case movReg8 => exact fun r g v => render_of_two mov_space rfl (rolesText_reg_imm8 r v)
  case movReg16 => exact fun r g v => render_of_two mov_space rfl (rolesText_reg_imm16 r v)
  case aluReg8 => exact fun op r sx v => render_aluImmRm op fun k hk => rolesText_reg_imm8 r v
  case aluReg16 => exact fun op r v => render_aluImmRm op fun k hk => rolesText_reg_imm16 r v
  case aluRegSx => exact fun op r v => toInt_sext16 v ▸ render_aluImmRm op fun k hk => rolesText_reg_imm16 r (sext16 v)
  case immReg8 => exact fun r v => render_of_two mov_space rfl (rolesText_reg_imm8 r v)
  case immReg16 => exact fun r v => render_of_two mov_space rfl (rolesText_reg_imm16 r v)
  case aluAcc8 => exact fun op v => al_comma ▸ render_aluImmAcc op fun k => rolesText_reg_imm8 .al v
  case aluAcc16 => exact fun op v => ax_comma ▸ render_aluImmAcc op fun k => rolesText_reg_imm16 .ax v
  case movRmReg8 =>
    exact fun rm r => ⟨render_of_two mov_space rfl (rolesText_loc8 rfl _ _), render_of_two mov_space rfl (rolesText_loc8 rfl _ _)⟩
  case movRmReg16 =>
    exact fun rm r => ⟨render_of_two mov_space rfl (rolesText_loc16 rfl _ _), render_of_two mov_space rfl (rolesText_loc16 rfl _ _)⟩
  case aluRmReg8 =>
    exact fun op rm r => ⟨render_aluRmReg op fun k hk => rolesText_loc8 hk (rmLoc8 rm) (.reg r),
      render_aluRmReg op fun k hk => rolesText_loc8 hk (.reg r) (rmLoc8 rm)⟩
  case aluRmReg16 =>
    exact fun op rm r => ⟨render_aluRmReg op fun k hk => rolesText_loc16 hk (rmLoc16 rm) (.reg r),
      render_aluRmReg op fun k hk => rolesText_loc16 hk (.reg r) (rmLoc16 rm)⟩
  case direct =>
    intro a
    have store8 := rolesText_loc8 (k := .movAccMem) rfl (.mem (.direct a)) (.reg .al)
    have store16 := rolesText_loc16 (k := .movAccMem) rfl (.mem (.direct a)) (.reg .ax)
    have load8 := rolesText_loc8 (k := .movMemAcc) rfl (.reg .al) (.mem (.direct a))
    have load16 := rolesText_loc16 (k := .movMemAcc) rfl (.reg .ax) (.mem (.direct a))
    exact ⟨render_of_two mov_space rfl (store8.trans (append_comma_al _)),
      render_of_two mov_space rfl (store16.trans (append_comma_ax _)),
      render_of_two mov_space rfl (al_comma ▸ load8), render_of_two mov_space rfl (ax_comma ▸ load16)⟩
  case segment =>
    exact fun g q rm => ⟨render_of_two mov_space rfl (rolesText_loc16 rfl _ _), render_of_two mov_space rfl (rolesText_loc16 rfl _ _)⟩
  case line => exact ⟨_, rfl, by decide⟩

end Sys2Proof.Machine
end
